-- ==== Sys2Proof/Word.lean ====
section
/-! DEFINITION. The word types of the QuadTC response decoder: a byte of the exchange primitive, the 32-bit
response word, the 16-bit stored raw temperature (`RAWW`) and the 16-bit operation result (`RESW`). -/

namespace Sys2Proof

/-- One byte: of an exchange (spec/20_memory.md R34), and a host command (spec/30_encoding.md R56). -/
abbrev Byte := BitVec 8

/-- The 32-bit response word `W` of one chip (spec/30_encoding.md R46). -/
abbrev Word := BitVec 32

/-- A stored raw temperature, `RAWW = 16`, two's complement (spec/00_scope.md R11, spec/10_state.md R17, R18). -/
abbrev Raw := BitVec 16

/-- An operation's result, `RESW = 16` (spec/00_scope.md R11, spec/30_encoding.md R55). -/
abbrev Res := BitVec 16

/-- A pin identifier. The spec gives no numbers and never computes with one (spec/00_scope.md R10): it is a name,
held as a natural number. -/
abbrev PinId := Nat

end Sys2Proof
end

