-- ==== Sys2Proof/Config.lean ====
section
/-! DEFINITION. What is fixed when the block is built (spec/00_scope.md R9 to R11), and the free values: what the
spec leaves open, as constants with no body, so that no proof can see a value of theirs. -/

namespace Sys2Proof

/-- `DIV_ROUND` (spec/00_scope.md R11, spec/42_accessors_and_conversion.md R90): the spec fixes `trunc` and keeps
`floor` as a named alternative (spec/90_conflicts.md C2, decision D5). -/
inductive DivRound where
  | trunc
  | floor
deriving DecidableEq, Repr

/-- The configuration, "fixed at construction" (spec/00_scope.md R9, R10, R11; spec/10_state.md R22).
`csPins` lists `CS_PIN[0..N-1]`, so that its length is the channel count `N`. -/
structure Config where
  /-- `PWR_PIN`, the shared power-enable pin. -/
  pwrPin : PinId
  /-- `CS_PIN[0..N-1]`, one chip-select pin per channel. -/
  csPins : List PinId
  /-- `DIV_ROUND`. -/
  divRound : DivRound
  /-- `DIAG_ENABLE`: whether the optional diagnostics hook exists (spec/60_exceptions.md R113). -/
  diagEnable : Bool
deriving DecidableEq, Repr

/-- The channel count `N` (spec/00_scope.md R9). -/
def Config.n (c : Config) : Nat := c.csPins.length

/-- The configuration `State.reset` is built with: four channels on pins 1 to 4, power on pin 0, truncation, the
diagnostics hook present. DESIGN CHOICE (notes/assumptions/2.md, unsafe): the spec takes every one of these as an
argument and gives no pin number. `State.construct` takes any configuration. -/
def Config.board : Config :=
  { pwrPin := 0, csPins := [1, 2, 3, 4], divRound := .trunc, diagEnable := true }

/-- FREE VALUE. What a chip answers in the exchange of that running number, where State lists no answer for it
(spec/20_memory.md R36: no rule constrains the bytes; spec/93_implementation_defined.md U1, U2).
notes/assumptions/4.md. -/
opaque Config.chipByte : Nat → Byte

/-- FREE VALUE. The dummy byte sent in the exchange of that running number, "value irrelevant"
(spec/20_memory.md R34, spec/93_implementation_defined.md U3). notes/assumptions/5.md. -/
opaque Config.dummyByte : Nat → Byte

/-- FREE VALUE. What `W` holds at the start of a pass, before the first frame writes it
(spec/10_state.md R24, R29; spec/93_implementation_defined.md U18). notes/assumptions/6.md. -/
opaque Config.staleWord : Nat → Word

/-- FREE VALUE. What `GOOD` holds before the end of a pass writes it
(spec/10_state.md R24, R29; spec/93_implementation_defined.md U18). notes/assumptions/6.md. -/
opaque Config.staleGood : Nat → Nat

end Sys2Proof
end

