-- ==== Sys2Proof/Syntax.lean ====
section
/-! DEFINITION. The ten operations of the block (spec/30_encoding.md R58), one constructor per row of
spec/opcode_table.json. -/

namespace Sys2Proof

/-- The operation set. `idx` is the external, 1-based channel index an accessor carries (spec/00_scope.md R14),
0 to 7 in a well-formed command (spec/30_encoding.md R56). -/
inductive Instr where
  /-- `initialize()` -/
  | init
  /-- `powerOn()` -/
  | pwrOn
  /-- `powerOff()` -/
  | pwrOff
  /-- `teardown()` -/
  | teardown
  /-- `retrieveAll()` -/
  | retrieve
  /-- `getThermocoupleCelsius(idx)` -/
  | getTcC (idx : Nat)
  /-- `getThermocoupleFahrenheit(idx)` -/
  | getTcF (idx : Nat)
  /-- `getAmbientCelsius(idx)` -/
  | getAmbC (idx : Nat)
  /-- `getAmbientFahrenheit(idx)` -/
  | getAmbF (idx : Nat)
  /-- `getFault(idx)` -/
  | getFault (idx : Nat)
deriving DecidableEq, Repr

/-- The index an operation carries; 0 where it takes none, as the field `IDX` then must be (spec/30_encoding.md R56). -/
def Instr.idx (i : Instr) : Nat :=
  match i with
  | .init => 0
  | .pwrOn => 0
  | .pwrOff => 0
  | .teardown => 0
  | .retrieve => 0
  | .getTcC idx => idx
  | .getTcF idx => idx
  | .getAmbC idx => idx
  | .getAmbF idx => idx
  | .getFault idx => idx

/-- The mnemonic of an operation (spec/30_encoding.md R58). -/
def Instr.mnemonic (i : Instr) : String :=
  match i with
  | .init => "INIT"
  | .pwrOn => "PWRON"
  | .pwrOff => "PWROFF"
  | .teardown => "TEARDOWN"
  | .retrieve => "RETRIEVE"
  | .getTcC _ => "GETTC_C"
  | .getTcF _ => "GETTC_F"
  | .getAmbC _ => "GETAMB_C"
  | .getAmbF _ => "GETAMB_F"
  | .getFault _ => "GETFAULT"

/-- Whether an operation is of format `I`, with an index operand (spec/30_encoding.md R56, R58). -/
def Instr.indexed (i : Instr) : Bool :=
  match i with
  | .init => false
  | .pwrOn => false
  | .pwrOff => false
  | .teardown => false
  | .retrieve => false
  | .getTcC _ => true
  | .getTcF _ => true
  | .getAmbC _ => true
  | .getAmbF _ => true
  | .getFault _ => true

/-- The text of an operation: the mnemonic, then for format `I` one decimal operand (spec/30_encoding.md R62). -/
def Instr.text (i : Instr) : String :=
  if i.indexed then i.mnemonic ++ " " ++ toString i.idx else i.mnemonic

end Sys2Proof
end

