-- ==== Sys2Proof/WellFormed.lean ====
section
/-! DEFINITION. When an instruction is well formed: its index fits the 3-bit field `IDX` (spec/30_encoding.md R56,
R60). An index that names no channel is well formed: it is defined behaviour, not a reserved encoding (R60). -/

namespace Sys2Proof

/-- An instruction some command word spells: its index is one of "channel index `idx`, 0..7"
(spec/30_encoding.md R56). -/
abbrev Instr.wf (i : Instr) : Prop := i.idx < 8

end Sys2Proof
end

