-- ==== Sys2Proof/Decode.lean ====
section
/-! DEFINITION. The command decoder and encoder (spec/30_encoding.md R56, R58, R59, R61). A command is one byte:
`OP` in bits 7:4, `Z` in bit 3, `IDX` in bits 2:0. The decoder reads the match/mask table of R58; the encoder packs
the fields of R56. The encoding is the spec's own (decision D8). -/

namespace Sys2Proof

/-- Why a command word is reserved (the three groups of spec/30_encoding.md R59), or there is no word. -/
inductive DecodeError where
  /-- `OP` in `0xA..0xF`, with any low nibble. -/
  | unassignedOp
  /-- `OP` in `0x0..0x4` with a non-zero low nibble. -/
  | operandOnFormatZ
  /-- `OP` in `0x5..0x9` with `Z = 1`. -/
  | zBitSet
  /-- There is no byte to decode. -/
  | noByte
deriving DecidableEq, Repr

/-- One row of the operation map (spec/30_encoding.md R58): `c` selects it when `c & mask = pat`. -/
structure OpRow where
  pat : Byte
  mask : Byte
  build : Nat → Instr

/-- The operation map, in the order of spec/30_encoding.md R58. -/
def opTable : List OpRow :=
  [ { pat := 0x00#8, mask := 0xFF#8, build := fun _ => .init },
    { pat := 0x10#8, mask := 0xFF#8, build := fun _ => .pwrOn },
    { pat := 0x20#8, mask := 0xFF#8, build := fun _ => .pwrOff },
    { pat := 0x30#8, mask := 0xFF#8, build := fun _ => .teardown },
    { pat := 0x40#8, mask := 0xFF#8, build := fun _ => .retrieve },
    { pat := 0x50#8, mask := 0xF8#8, build := .getTcC },
    { pat := 0x60#8, mask := 0xF8#8, build := .getTcF },
    { pat := 0x70#8, mask := 0xF8#8, build := .getAmbC },
    { pat := 0x80#8, mask := 0xF8#8, build := .getAmbF },
    { pat := 0x90#8, mask := 0xF8#8, build := .getFault } ]

/-- A command word selects a row (spec/30_encoding.md R58). -/
def selects (c : Byte) (r : OpRow) : Bool := c &&& r.mask == r.pat

/-- `OP = c[7:4]` (spec/30_encoding.md R56). -/
def opOf (c : Byte) : BitVec 4 := c.extractLsb' 4 4

/-- `IDX = c[2:0]`, an unsigned number used as it stands (spec/30_encoding.md R56). -/
def idxOf (c : Byte) : Nat := (c.extractLsb' 0 3).toNat

/-- Which group of spec/30_encoding.md R59 a word that selects no row belongs to. -/
def rejectReason (c : Byte) : DecodeError :=
  if 0xA#4 ≤ opOf c then .unassignedOp
  else if 0x5#4 ≤ opOf c then .zBitSet
  else .operandOnFormatZ

/-- One command word: the row it selects, or the reason it is reserved (spec/30_encoding.md R58, R59). -/
def decodeByte (c : Byte) : Except DecodeError Instr :=
  match opTable.find? (selects c) with
  | some r => .ok (r.build (idxOf c))
  | none => .error (rejectReason c)

/-- The decoder on any bytes: one byte is one command (spec/30_encoding.md R61), the rest is handed back. -/
def decode (bs : List Byte) : Except DecodeError (Instr × List Byte) :=
  match bs with
  | [] => .error .noByte
  | c :: rest =>
    match decodeByte c with
    | .ok i => .ok (i, rest)
    | .error e => .error e

/-- The `OP` of an operation (spec/30_encoding.md R58). -/
def opField (i : Instr) : BitVec 4 :=
  match i with
  | .init => 0x0#4
  | .pwrOn => 0x1#4
  | .pwrOff => 0x2#4
  | .teardown => 0x3#4
  | .retrieve => 0x4#4
  | .getTcC _ => 0x5#4
  | .getTcF _ => 0x6#4
  | .getAmbC _ => 0x7#4
  | .getAmbF _ => 0x8#4
  | .getFault _ => 0x9#4

/-- The `IDX` of an operation: its index, or `0b000` where it takes none (spec/30_encoding.md R56). -/
def idxField (i : Instr) : BitVec 3 := BitVec.ofNat 3 i.idx

/-- `OP ++ 0b0 ++ IDX` (spec/30_encoding.md R56; format `Z` is the case `IDX = 0b000`). -/
def encodeByte (i : Instr) : Byte := opField i ++ (0#1 ++ idxField i)

/-- The words of an instruction: one byte (spec/30_encoding.md R61). -/
def encode (i : Instr) : List Byte := [encodeByte i]

/-- The byte a table row's word stands for: its low `nbits` bits, every bit above them 0. -/
def tableByte (nbits w : Nat) : Byte := BitVec.ofNat 8 (w % 2 ^ nbits)

/-- The instruction the decoder reads from a word numbered as spec/opcode_table.json numbers it. -/
def decodeTableWord (nbits w : Nat) : Option Instr :=
  match decode [tableByte nbits w] with
  | .ok (i, _) => some i
  | .error _ => none

end Sys2Proof
end

