-- ==== Sys2Proof/Machine/State.lean ====
section
/-! DEFINITION. The state of the block (spec/10_state.md R16 to R30), the events it emits and takes
(spec/20_memory.md R45), the reasons a step stops, and the state after reset (CONSTRUCT,
spec/40_lifecycle_and_pins.md R65). The block has no program counter, no memory, no modes and no exception
registers (R25, spec/60_exceptions.md R110, R114, R115). -/

namespace Sys2Proof.Machine

/-- A pin's direction (spec/20_memory.md R33). -/
inductive PinMode where
  | output
  | input
deriving DecidableEq, Repr

/-- A pin's level (spec/00_scope.md R15). -/
inductive Level where
  | low
  | high
deriving DecidableEq, Repr

/-- What a pin register of spec/10_state.md R23 holds: the value the block last wrote, or "unwritten", which is a
value of the register's own table (R23) and its value after CONSTRUCT (R29). -/
inductive Driven (α : Type) where
  | unwritten
  | wrote (v : α)
deriving DecidableEq, Repr

/-- One pin the block drives: its direction and level as last written (spec/10_state.md R23). -/
structure Line where
  dir : Driven PinMode
  lvl : Driven Level
deriving DecidableEq, Repr

/-- The fault classification: exactly five values, an enumeration and not a bit set (spec/10_state.md R19). -/
inductive FaultClass where
  | none
  | shortToSupply
  | shortToGround
  | disconnected
  | busError
deriving DecidableEq, Repr

/-- One slot of the channel store: `TC[i]`, `AMB[i]`, `FLT[i]` (spec/10_state.md R17, R18, R19). -/
structure Slot where
  tc : Raw
  amb : Raw
  flt : FaultClass
deriving DecidableEq, Repr

/-- The kind a diagnostics event carries (spec/60_exceptions.md R113). -/
inductive DiagKind where
  | busErrorKind
  | invalidIndexKind
deriving DecidableEq, Repr

/-- The events of an operation (spec/20_memory.md R45). -/
inductive Event where
  /-- `PinDir(pin, mode)` -/
  | pinDir (pin : PinId) (mode : PinMode)
  /-- `PinLevel(pin, level)` -/
  | pinLevel (pin : PinId) (level : Level)
  /-- `Exchange(tx) -> rx` -/
  | exchange (tx rx : Byte)
  /-- `Diag(kind)` -/
  | diag (kind : DiagKind)
  /-- `return v` -/
  | ret (v : Res)
deriving DecidableEq, Repr

/-- What the exchange primitive does with one exchange: it answers with a byte, or it never returns
(spec/20_memory.md R34, R44). -/
inductive Reply where
  | byte (b : Byte)
  | never
deriving DecidableEq, Repr

/-- The transient state of RETRIEVE (spec/10_state.md R24): the current channel number `CH`, the word `W`, the count
`GOOD`. It exists only while a pass runs. -/
structure Pass where
  ch : Nat
  w : Word
  good : Nat
deriving DecidableEq, Repr

/-- The state. `store`, `pwr`, `cs` and `pass` are the block's (spec/10_state.md R16); `cfg` is the configuration the
step is given (R22; notes/assumptions/1.md); `cmds`, `replies`, `xcount` and `trace` are the model's record of the
host and the environment (notes/assumptions/3.md, 4.md, 7.md). -/
structure State where
  /-- The configuration (spec/10_state.md R22). No step changes it. -/
  cfg : Config
  /-- The channel store, slot `i` for channel `i + 1` (spec/10_state.md R16 (a), R17 to R19). -/
  store : List Slot
  /-- `PWR_DIR`, `PWR_LVL` (spec/10_state.md R23). -/
  pwr : Line
  /-- `CS_DIR[i]`, `CS_LVL[i]` (spec/10_state.md R23). -/
  cs : List Line
  /-- `CH`, `W`, `GOOD` while a pass runs; `BUSY` is that there is one (spec/10_state.md R24). -/
  pass : Option Pass
  /-- The command words the host will issue, next first (spec/10_state.md R25, spec/70_reset_and_hazards.md R133). -/
  cmds : List Byte
  /-- The answers the environment has ready for the coming exchanges, next first (spec/20_memory.md R36). -/
  replies : List Reply
  /-- How many exchanges have been answered: the counter the free values are applied to. -/
  xcount : Nat
  /-- The event trace, oldest first (spec/20_memory.md R45). -/
  trace : List Event
deriving DecidableEq, Repr

/-- `BUSY`: true from the start of a pass to its return (spec/10_state.md R24). -/
def State.busy (s : State) : Bool := s.pass.isSome

/-- A slot after reset: (0, 0, None) (spec/10_state.md R28). -/
def Slot.zero : Slot := { tc := 0#16, amb := 0#16, flt := .none }

/-- A pin the block has never written (spec/10_state.md R29). -/
def Line.unwritten : Line := { dir := .unwritten, lvl := .unwritten }

/-- CONSTRUCT, the reset event (spec/40_lifecycle_and_pins.md R65; spec/10_state.md R28, R29): the store is cleared,
`BUSY` is false, no pin is written, no event is emitted. -/
def State.construct (c : Config) : State :=
  { cfg := c
    store := List.replicate c.n Slot.zero
    pwr := Line.unwritten
    cs := List.replicate c.n Line.unwritten
    pass := none
    cmds := []
    replies := []
    xcount := 0
    trace := [] }

/-- The machine right after reset, for the configuration of `Config.board` (notes/assumptions/2.md). -/
def State.reset : State := State.construct Config.board

/-- Why the machine stops. -/
inductive Fault where
  /-- Raised by `step` in a state in which a byte exchange never returned: the block "is stuck inside RETRIEVE with
  `BUSY` true ... and no enabled step" (spec/20_memory.md R44, spec/93_implementation_defined.md U7). Safe: the
  hardware does nothing more either. -/
  | blockedExchange
deriving DecidableEq, Repr

/-- Why an instruction or a command is refused. -/
inductive Refusal where
  /-- Raised by an arm of `exec` whose instruction has no meaning yet: no arm does. Safe. -/
  | notModelled (mnemonic : String)
  /-- Raised by `step` on a reserved command word: "the model refuses it" (spec/30_encoding.md R59, spec/60_exceptions.md
  R107). Safe. -/
  | reservedCommand (c : Byte) (why : DecodeError)
  /-- Raised by every meaning in a state in which the block is `BUSY`: the host has no move
  (spec/70_reset_and_hazards.md R125, spec/93_implementation_defined.md U6). Unsafe where a real host breaks the
  contract (spec/92_eei_decisions.md D19). -/
  | hostMoveWhileBusy
  /-- Raised by every meaning in a configuration that is not a QTC-DEC: `N` outside 1 to 4, or two roles on one pin
  (spec/00_scope.md R9, R10; spec/93_implementation_defined.md U8, U9). Safe. -/
  | notAConfiguration
deriving DecidableEq, Repr

end Sys2Proof.Machine
end

