-- ==== Sys2Proof/Machine/Flags.lean ====
section
/-! DEFINITION. The fault classification, the block's only status flag (spec/10_state.md R30): its computation from a
word (spec/41_retrieve_and_decode.md R78, R81), its codes (spec/30_encoding.md R54) and the good count
(spec/41_retrieve_and_decode.md R86). -/

namespace Sys2Proof.Machine

/-- `is_bus_error(W)`: all 32 bits zero or all one (spec/41_retrieve_and_decode.md R78). -/
def isBusError (w : Word) : Bool := w == 0x00000000#32 || w == 0xFFFFFFFF#32

/-- `fault_class(W)` from `W[2:0]`: disconnect first, supply short last, each assignment overwriting the one before
(spec/41_retrieve_and_decode.md R81, spec/90_conflicts.md C1). -/
def faultClass (w : Word) : FaultClass :=
  let c := FaultClass.none
  let c := if w.getLsbD 0 then FaultClass.disconnected else c
  let c := if w.getLsbD 1 then FaultClass.shortToGround else c
  if w.getLsbD 2 then FaultClass.shortToSupply else c

/-- The code of a classification, zero-extended to a result (spec/30_encoding.md R54, R55). -/
def faultCode (f : FaultClass) : Res :=
  match f with
  | .none => 0#16
  | .shortToSupply => 1#16
  | .shortToGround => 2#16
  | .disconnected => 3#16
  | .busError => 4#16

/-- The number of channels with `FLT[i] = None` (spec/41_retrieve_and_decode.md R86). -/
def goodCount (store : List Slot) : Nat := store.countP fun c => c.flt == .none

end Sys2Proof.Machine
end

