-- ==== Sys2Proof/Machine/Operands.lean ====
section
/-! DEFINITION. The operand forms: the fields of the response word (spec/30_encoding.md R46 to R49,
spec/41_retrieve_and_decode.md R77, R79, R80), the index operand (spec/20_memory.md R32) and the arithmetic of the
unit converter (spec/42_accessors_and_conversion.md R90 to R95). -/

namespace Sys2Proof.Machine

/-- `assemble`: most significant byte first, `b0` received first (spec/41_retrieve_and_decode.md R77). -/
def assemble (b0 b1 b2 b3 : Byte) : Word :=
  (b0.setWidth 32 <<< 24) ||| (b1.setWidth 32 <<< 16) ||| (b2.setWidth 32 <<< 8) ||| b3.setWidth 32

/-- `TCF = (W >> 18) & 0x3FFF = W[31:18]` (spec/30_encoding.md R47). -/
def tcField (w : Word) : BitVec 14 := ((w >>> 18) &&& 0x3FFF#32).setWidth 14

/-- `AMBF = (W >> 4) & 0xFFF = W[15:4]` (spec/30_encoding.md R48). -/
def ambField (w : Word) : BitVec 12 := ((w >>> 4) &&& 0xFFF#32).setWidth 12

/-- `tc_raw(W) = sext_14(TCF)`, as the 16-bit register holds it (spec/41_retrieve_and_decode.md R79). -/
def tcRaw (w : Word) : Raw := (tcField w).signExtend 16

/-- `amb_raw(W) = sext_12(AMBF)`, as the 16-bit register holds it (spec/41_retrieve_and_decode.md R80). -/
def ambRaw (w : Word) : Raw := (ambField w).signExtend 16

/-- The index is valid when `1 <= idx <= N` (spec/20_memory.md R32, spec/42_accessors_and_conversion.md R96). -/
def indexValid (c : Config) (idx : Nat) : Bool := decide (1 ≤ idx ∧ idx ≤ c.n)

/-- `sdiv(a, d)`, `d > 0` (spec/42_accessors_and_conversion.md R90): toward zero under `trunc`, toward negative infinity
under `floor`. (Lean's `/` on integers is `floor(a / d)` for a positive `d`.) -/
def sdiv (m : DivRound) (a d : Int) : Int :=
  match m with
  | .trunc => if 0 ≤ a then a / d else -((-a) / d)
  | .floor => a / d

/-- `c_quarter(r) = sdiv(r, 4)` (spec/42_accessors_and_conversion.md R92). -/
def cQuarter (m : DivRound) (r : Int) : Int := sdiv m r 4

/-- `f_quarter(r)`: multiply by 9, divide by 5, divide by 4, add 32, in that order
(spec/42_accessors_and_conversion.md R93). -/
def fQuarter (m : DivRound) (r : Int) : Int := sdiv m (sdiv m (r * 9) 5) 4 + 32

/-- `c_sixteenth(r) = sdiv(r, 16)` (spec/42_accessors_and_conversion.md R94). -/
def cSixteenth (m : DivRound) (r : Int) : Int := sdiv m r 16

/-- `f_sixteenth(r)` (spec/42_accessors_and_conversion.md R95). -/
def fSixteenth (m : DivRound) (r : Int) : Int := sdiv m (sdiv m (r * 9) 5) 16 + 32

/-- A temperature as a result: 16-bit two's complement (spec/30_encoding.md R55). -/
def degrees (v : Int) : Res := BitVec.ofInt 16 v

end Sys2Proof.Machine
end

