-- ==== Sys2Proof/Machine/Ops.lean ====
section
/-! DEFINITION. The named operations the meanings share: the pin primitive, the byte exchange, the diagnostics hook,
the channel store, the index check, the micro-operations EXCH4 and DECODE, the pass, and the conditions under which an
operation is accepted.

The block takes no exception and returns from none (spec/60_exceptions.md R110): where the source has errors they are
recorded values. Their shared operations are `decodeChannel` (BusError, R104; chip faults, R105) and `access`
(invalid index, R106). -/

namespace Sys2Proof.Machine

/-- A QTC-DEC configuration: `1 <= N <= 4`, all pins distinct (spec/00_scope.md R9, R10). -/
def configOk (c : Config) : Bool :=
  decide (1 ≤ c.n ∧ c.n ≤ 4 ∧ (c.pwrPin :: c.csPins).Nodup)

/-- An operation is accepted in every state in which the block is not `BUSY`, with no other test
(spec/40_lifecycle_and_pins.md R76); it runs to its end as `body` says. -/
def issue (s : State) (body : State → State) : Host.Outcome State Fault Refusal :=
  if configOk s.cfg then
    if s.busy then .refused .hostMoveWhileBusy else .next (body s)
  else .refused .notAConfiguration

/-- The host's next command word, and the state once it is taken. -/
def fetch (s : State) : Option (Byte × State) :=
  match s.cmds with
  | [] => none
  | c :: rest => some (c, { s with cmds := rest })

/-- The state with `c` as the host's next command word and the block free to take it. -/
def putCommand (c : Byte) (s : State) : State := { s with cmds := c :: s.cmds, pass := none }

/-- Events are recorded in order (spec/20_memory.md R45). -/
def emit (es : List Event) (s : State) : State := { s with trace := s.trace ++ es }

/-- `return v` (spec/00_scope.md R13). -/
def returnValue (v : Res) (s : State) : State := emit [.ret v] s

/-- The events of `Diag(kind)`: one when `DIAG_ENABLE`, else none (spec/60_exceptions.md R113). -/
def diagEvents (c : Config) (k : DiagKind) : List Event := if c.diagEnable then [.diag k] else []

/-- `PinDir(PWR_PIN, m); PWR_DIR <- m` (spec/20_memory.md R33). -/
def pwrDir (m : PinMode) (s : State) : State :=
  emit [.pinDir s.cfg.pwrPin m] { s with pwr := { s.pwr with dir := .wrote m } }

/-- `PinLevel(PWR_PIN, l); PWR_LVL <- l`, whatever the pin's direction (spec/40_lifecycle_and_pins.md R73). -/
def pwrLevel (l : Level) (s : State) : State :=
  emit [.pinLevel s.cfg.pwrPin l] { s with pwr := { s.pwr with lvl := .wrote l } }

/-- `for all i: PinDir(CS_PIN[i], m); CS_DIR[i] <- m`, in ascending order (spec/40_lifecycle_and_pins.md R72). -/
def allCsDir (m : PinMode) (s : State) : State :=
  emit (s.cfg.csPins.map fun p => .pinDir p m)
    { s with cs := s.cs.map fun c => { c with dir := .wrote m } }

/-- `for all i: PinLevel(CS_PIN[i], l); CS_LVL[i] <- l`, in ascending order (spec/40_lifecycle_and_pins.md R72). -/
def allCsLevel (l : Level) (s : State) : State :=
  emit (s.cfg.csPins.map fun p => .pinLevel p l)
    { s with cs := s.cs.map fun c => { c with lvl := .wrote l } }

/-- `CS_PIN[i]` (spec/00_scope.md R10). -/
def csPin (c : Config) (i : Nat) : PinId := c.csPins.getD i 0

/-- `PinLevel(CS_PIN[i], l); CS_LVL[i] <- l` (spec/41_retrieve_and_decode.md R83). -/
def csLevel (i : Nat) (l : Level) (s : State) : State :=
  emit [.pinLevel (csPin s.cfg i) l]
    { s with cs := s.cs.modify i fun c => { c with lvl := .wrote l } }

/-- `for all i: TC[i] <- 0; AMB[i] <- 0; FLT[i] <- None` (spec/10_state.md R28). -/
def clearStore (s : State) : State := { s with store := s.store.map fun _ => Slot.zero }

/-- Slot `i` of the channel store. -/
def slotAt (i : Nat) (s : State) : Slot := s.store.getD i Slot.zero

/-- The accessors' common form (spec/42_accessors_and_conversion.md R96): index check, then either the sentinel with a
diagnostics event or the value of the slot. -/
def access (idx : Nat) (sentinel : Res) (value : Slot → Res) (s : State) : State :=
  emit
    (if indexValid s.cfg idx then [.ret (value (slotAt (idx - 1) s))]
     else diagEvents s.cfg .invalidIndexKind ++ [.ret sentinel])
    s

/-- What the environment does with the `k`-th coming exchange (0 is the next one): the answer State lists, else a free
byte (spec/20_memory.md R36). -/
def replyAt (s : State) (k : Nat) : Reply :=
  s.replies.getD k (.byte (Config.chipByte (s.xcount + k)))

/-- How a part of a pass ends: it is done with a value, or an exchange in it never returned
(spec/20_memory.md R44). -/
inductive Sync (α : Type) where
  | done (a : α) (s : State)
  | blocked (s : State)
deriving DecidableEq, Repr

/-- One part of a pass after another. -/
def Sync.andThen {α β : Type} (r : Sync α) (f : α → State → Sync β) : Sync β :=
  match r with
  | .done a s => f a s
  | .blocked s => .blocked s

/-- `Exchange(tx)` (spec/20_memory.md R34): the next answer, or the block hangs where it stands (R44). -/
def exchange (s : State) : Sync Byte :=
  match replyAt s 0 with
  | .byte b =>
    .done b
      { s with
        replies := s.replies.drop 1
        xcount := s.xcount + 1
        trace := s.trace ++ [.exchange (Config.dummyByte s.xcount) b] }
  | .never => .blocked s

/-- The transient registers as the pass has them. -/
def holdPass (p : Pass) (s : State) : State := { s with pass := some p }

/-- EXCH4(`ch`) (spec/41_retrieve_and_decode.md R83): one chip-select frame around four exchanges; it leaves `W`. -/
def exch4 (p : Pass) (s : State) : Sync Pass :=
  (exchange (csLevel (p.ch - 1) .low (holdPass p s))).andThen fun b0 s =>
  (exchange s).andThen fun b1 s =>
  (exchange s).andThen fun b2 s =>
  (exchange s).andThen fun b3 s =>
    let p' := { p with w := assemble b0 b1 b2 b3 }
    .done p' (holdPass p' (csLevel (p.ch - 1) .high s))

/-- What DECODE makes of one slot: the decoded triple (spec/41_retrieve_and_decode.md R84), or BusError with the
temperatures kept (R85). -/
def decodeSlot (w : Word) (old : Slot) : Slot :=
  if isBusError w then { old with flt := .busError }
  else { tc := tcRaw w, amb := ambRaw w, flt := faultClass w }

/-- The diagnostics of DECODE: one event on a bus error (spec/41_retrieve_and_decode.md R84, R85). -/
def decodeEvents (c : Config) (w : Word) : List Event :=
  if isBusError w then diagEvents c .busErrorKind else []

/-- DECODE(`ch`, `W`), one atomic update (spec/41_retrieve_and_decode.md R84, R85). -/
def decodeChannel (p : Pass) (s : State) : State :=
  emit (decodeEvents s.cfg p.w) { s with store := s.store.modify (p.ch - 1) (decodeSlot p.w) }

/-- One per-channel step of a pass: EXCH4, then DECODE (spec/41_retrieve_and_decode.md R89). -/
def passChannel (p : Pass) (s : State) : Sync Pass :=
  (exch4 p s).andThen fun p s => .done p (decodeChannel p s)

/-- The channels `chs` of a pass, in that order (spec/41_retrieve_and_decode.md R86). -/
def passLoop (chs : List Nat) (p : Pass) (s : State) : Sync Pass :=
  match chs with
  | [] => .done p s
  | ch :: rest => (passChannel { p with ch := ch } s).andThen fun p s => passLoop rest p s

/-- The transient registers as a pass starts: `W` and `GOOD` are unspecified until it writes them
(spec/10_state.md R24, R29). -/
def startPass (s : State) : Pass :=
  { ch := 1, w := Config.staleWord s.xcount, good := Config.staleGood s.xcount }

/-- The end of a pass: `GOOD` is counted, `BUSY <- false`, `return zext_16(GOOD)` (spec/41_retrieve_and_decode.md
R86). -/
def endPass (p : Pass) (s : State) : State :=
  let p' := { p with good := goodCount s.store }
  returnValue (BitVec.ofNat 16 p'.good) { s with pass := none }

/-- A whole pass over channels 1 to `N` in ascending order (spec/41_retrieve_and_decode.md R86). If an exchange never
returns, the block stays where it is, `BUSY` (spec/20_memory.md R44, spec/41_retrieve_and_decode.md R89). -/
def retrievePass (s : State) : State :=
  match passLoop (List.range' 1 s.cfg.n) (startPass s) s with
  | .done p s' => endPass p s'
  | .blocked s' => s'

/-- The result of the operation that ran last: what it returned, or nothing (spec/30_encoding.md R55). -/
def lastResult (s : State) : Option Res :=
  match s.trace.getLast? with
  | some (.ret v) => some v
  | _ => none

end Sys2Proof.Machine
end

