-- ==== Sys2Proof/Machine/Accessors.lean ====
section
/-! DEFINITION. The five accessors (spec/42_accessors_and_conversion.md R96 to R101). None writes the store, and none
looks at the fault classification before it converts (R102). -/

namespace Sys2Proof.Machine

/-- GETTC_C (spec/42_accessors_and_conversion.md R97). -/
def execGetTcC (idx : Nat) (s : State) : Host.Outcome State Fault Refusal :=
  issue s (access idx 0#16 fun c => degrees (cQuarter s.cfg.divRound c.tc.toInt))

/-- GETTC_F (spec/42_accessors_and_conversion.md R98): its sentinel is 0, not 32. -/
def execGetTcF (idx : Nat) (s : State) : Host.Outcome State Fault Refusal :=
  issue s (access idx 0#16 fun c => degrees (fQuarter s.cfg.divRound c.tc.toInt))

/-- GETAMB_C (spec/42_accessors_and_conversion.md R99). -/
def execGetAmbC (idx : Nat) (s : State) : Host.Outcome State Fault Refusal :=
  issue s (access idx 0#16 fun c => degrees (cSixteenth s.cfg.divRound c.amb.toInt))

/-- GETAMB_F (spec/42_accessors_and_conversion.md R100). -/
def execGetAmbF (idx : Nat) (s : State) : Host.Outcome State Fault Refusal :=
  issue s (access idx 0#16 fun c => degrees (fSixteenth s.cfg.divRound c.amb.toInt))

/-- GETFAULT (spec/42_accessors_and_conversion.md R101): its sentinel is BusError. -/
def execGetFault (idx : Nat) (s : State) : Host.Outcome State Fault Refusal :=
  issue s (access idx (faultCode .busError) fun c => faultCode c.flt)

end Sys2Proof.Machine
end

