-- ==== Sys2Proof/Machine/Lifecycle.lean ====
section
/-! DEFINITION. INIT, PWRON, PWROFF, TEARDOWN (spec/40_lifecycle_and_pins.md R66 to R69). None returns a value
(R75). -/

namespace Sys2Proof.Machine

/-- INIT (spec/40_lifecycle_and_pins.md R66): pins to outputs, chips deselected, power off, store cleared. It never
changes the configuration (spec/10_state.md R22) and emits no diagnostics (spec/90_conflicts.md C6). -/
def execInit (s : State) : Host.Outcome State Fault Refusal :=
  issue s fun s =>
    clearStore (pwrLevel .low (allCsLevel .high (allCsDir .output (pwrDir .output s))))

/-- PWRON (spec/40_lifecycle_and_pins.md R67): deselect every chip, then power on. -/
def execPwrOn (s : State) : Host.Outcome State Fault Refusal :=
  issue s fun s => pwrLevel .high (allCsLevel .high s)

/-- PWROFF (spec/40_lifecycle_and_pins.md R68): power off, then deselect every chip. -/
def execPwrOff (s : State) : Host.Outcome State Fault Refusal :=
  issue s fun s => allCsLevel .high (pwrLevel .low s)

/-- TEARDOWN (spec/40_lifecycle_and_pins.md R69, R74): power off, then every chip-select pin to input. -/
def execTeardown (s : State) : Host.Outcome State Fault Refusal :=
  issue s fun s => allCsDir .input (pwrLevel .low s)

end Sys2Proof.Machine
end

