-- ==== Sys2Proof/Machine/Retrieve.lean ====
section
/-! DEFINITION. RETRIEVE (spec/41_retrieve_and_decode.md R86). -/

namespace Sys2Proof.Machine

/-- RETRIEVE (spec/41_retrieve_and_decode.md R86, R87): one pass over all channels, as one step (R89 allows it); it
tests nothing before it starts. -/
def execRetrieve (s : State) : Host.Outcome State Fault Refusal := issue s retrievePass

end Sys2Proof.Machine
end

