-- ==== Sys2Proof/Machine/Dispatch.lean ====
section
/-! DEFINITION. One arm per operation (spec/30_encoding.md R58). -/

namespace Sys2Proof.Machine

def exec (i : Instr) (s : State) : Host.Outcome State Fault Refusal :=
  match i with
  | .init => Sys2Proof.Machine.execInit s
  | .pwrOn => Sys2Proof.Machine.execPwrOn s
  | .pwrOff => Sys2Proof.Machine.execPwrOff s
  | .teardown => Sys2Proof.Machine.execTeardown s
  | .retrieve => Sys2Proof.Machine.execRetrieve s
  | .getTcC idx => Sys2Proof.Machine.execGetTcC idx s
  | .getTcF idx => Sys2Proof.Machine.execGetTcF idx s
  | .getAmbC idx => Sys2Proof.Machine.execGetAmbC idx s
  | .getAmbF idx => Sys2Proof.Machine.execGetAmbF idx s
  | .getFault idx => Sys2Proof.Machine.execGetFault idx s

end Sys2Proof.Machine
end

