-- ==== Sys2Proof/Machine/Step.lean ====
section
/-! DEFINITION. One step: the block takes the host's next command word and runs it to its end
(spec/00_scope.md R4, R5; spec/70_reset_and_hazards.md R133). -/

namespace Sys2Proof.Machine

/-- A step. While a pass is blocked there is no enabled step (spec/20_memory.md R44); with no command waiting the block
holds its state (spec/70_reset_and_hazards.md R133); a reserved word is refused (spec/30_encoding.md R59). -/
def step (s : State) : Host.Outcome State Fault Refusal :=
  if s.busy then .fault .blockedExchange
  else
    match fetch s with
    | none => .next s
    | some (c, s') =>
      match decodeByte c with
      | .ok i => exec i s'
      | .error e => .refused (.reservedCommand c e)

/-- `s` with a table row's word as the host's next command, and no pass in progress, which is all that fetching it
takes (notes/assumptions/3.md). -/
def State.withFetchWord (s : State) (nbits w : Nat) : State := putCommand (tableByte nbits w) s

end Sys2Proof.Machine
end

