-- ==== Sys2Proof/Safety.lean ====
section
/-! DEFINITION. What counts as gone wrong (spec/60_exceptions.md R120), when a state is final
(spec/70_reset_and_hazards.md R133), and the invariant of the block (spec/10_state.md R19, R20;
spec/20_memory.md R35). -/

namespace Sys2Proof.Machine

/-- Gone wrong (spec/60_exceptions.md R120): a reserved command was refused, the block is stuck in a blocked exchange, or
a premise on the host or the configuration was broken. BusError, chip faults and invalid indices are not. -/
def goneWrong (o : Host.Outcome State Fault Refusal) : Bool :=
  match o with
  | .next s => s.busy
  | .fault .blockedExchange => true
  | .refused _ => true

/-- A run has ended: the host issues nothing more and the block is not `BUSY` (spec/70_reset_and_hazards.md R133). -/
def finalState (s : State) : Bool := !s.busy && s.cmds.isEmpty

/-- `k` steps from `s` never go wrong. -/
def safeFor (k : Nat) (s : State) : Bool := !goneWrong (Sys2Proof.core.run k s)

/-- The value ranges of spec/10_state.md R20. (`FLT` has five values by its type.) -/
abbrev slotInRange (c : Slot) : Prop :=
  -8192 ≤ c.tc.toInt ∧ c.tc.toInt ≤ 8191 ∧ -2048 ≤ c.amb.toInt ∧ c.amb.toInt ≤ 2047

/-- The level last written to the chip-select pin of slot `i`. -/
def csLvlAt (s : State) (i : Nat) : Driven Level := (s.cs.getD i Line.unwritten).lvl

/-- `N` slots and `N` chip-select lines (spec/10_state.md R16). -/
abbrev shaped (s : State) : Prop := s.store.length = s.cfg.n ∧ s.cs.length = s.cfg.n

/-- The invariant: the configuration is a QTC-DEC (spec/00_scope.md R9, R10); `N` slots and `N` lines
(spec/10_state.md R16); every stored value is in range (R20); the power pin was never made an input (R23, R26); a
chip-select line is `LOW` exactly while a pass stands in that channel (spec/20_memory.md R35, R44), which is one of
1 to `N` (spec/10_state.md R24). -/
abbrev State.Inv (s : State) : Prop :=
  configOk s.cfg = true ∧ shaped s ∧ (∀ c ∈ s.store, slotInRange c) ∧ s.pwr.dir ≠ .wrote .input ∧
  (∀ i < s.cfg.n, csLvlAt s i = .wrote .low ↔ s.pass.map (·.ch) = some (i + 1)) ∧
  (s.pass.map fun p => decide (1 ≤ p.ch ∧ p.ch ≤ s.cfg.n)).getD true = true

/-- An operation is accepted: a QTC-DEC configuration, and the block not `BUSY` (spec/40_lifecycle_and_pins.md R76). -/
abbrev Ready (s : State) : Prop := configOk s.cfg = true ∧ s.busy = false

/-- The first `k` coming exchanges are answered, with the bytes `b 0`, `b 1`, ... (spec/20_memory.md R34, R36). -/
def Answers (b : Nat → Byte) (k : Nat) (s : State) : Prop := ∀ j < k, replyAt s j = .byte (b j)

/-- The word of the `i`-th frame of a pass whose bytes are `b` (spec/20_memory.md R37). -/
def wordOf (b : Nat → Byte) (i : Nat) : Word :=
  assemble (b (4 * i)) (b (4 * i + 1)) (b (4 * i + 2)) (b (4 * i + 3))

/-- The events of a chip-select frame on slot `i` (spec/20_memory.md R35), its exchanges numbered from `x` and answered
with `b 0` to `b 3`. -/
def frameEvents (c : Config) (i x : Nat) (b : Nat → Byte) : List Event :=
  [.pinLevel (csPin c i) .low,
   .exchange (Config.dummyByte x) (b 0),
   .exchange (Config.dummyByte (x + 1)) (b 1),
   .exchange (Config.dummyByte (x + 2)) (b 2),
   .exchange (Config.dummyByte (x + 3)) (b 3),
   .pinLevel (csPin c i) .high]

/-- The events of the frames of `m` channels from slot `k` on, each followed by its diagnostics
(spec/41_retrieve_and_decode.md R86). -/
def passEvents (c : Config) (b : Nat → Byte) (x k m : Nat) : List Event :=
  (List.range m).flatMap fun i =>
    frameEvents c (k + i) (x + 4 * i) (fun j => b (4 * i + j)) ++ decodeEvents c (wordOf b i)

end Sys2Proof.Machine
end

