-- ==== Sys2Proof/Certificates/Slice0/Obligations.lean ====
section
/-! DEFINITION. The statements for the provers, each from a rule of spec/ or from the sections it names. -/

namespace Sys2Proof.Claims

open Sys2Proof Sys2Proof.Machine

/-- The three groups of reserved command words (spec/30_encoding.md R59). -/
abbrev reservedWord (c : Byte) : Prop :=
  10 ≤ c.toNat / 16 ∨ (c.toNat / 16 ≤ 4 ∧ c.toNat % 16 ≠ 0) ∨
    (5 ≤ c.toNat / 16 ∧ c.toNat / 16 ≤ 9 ∧ 8 ≤ c.toNat % 16)

/-- The index an accessor carries; the other operations take none (spec/30_encoding.md R58). -/
def accessorIdx (i : Instr) : Option Nat :=
  match i with
  | .init => none
  | .pwrOn => none
  | .pwrOff => none
  | .teardown => none
  | .retrieve => none
  | .getTcC idx => some idx
  | .getTcF idx => some idx
  | .getAmbC idx => some idx
  | .getAmbF idx => some idx
  | .getFault idx => some idx

/-- What an accessor returns on an invalid index: 0, or BusError (4) for GETFAULT
(spec/42_accessors_and_conversion.md R96). -/
def sentinelOf (i : Instr) : Res :=
  match i with
  | .init => 0#16
  | .pwrOn => 0#16
  | .pwrOff => 0#16
  | .teardown => 0#16
  | .retrieve => 0#16
  | .getTcC _ => 0#16
  | .getTcF _ => 0#16
  | .getAmbC _ => 0#16
  | .getAmbF _ => 0#16
  | .getFault _ => 4#16

/-- `s` with another channel store. -/
def withStore (st : List Slot) (s : State) : State := { s with store := st }

/-- `s` with the diagnostics hook present or absent. -/
def withDiag (d : Bool) (s : State) : State := { s with cfg := { s.cfg with diagEnable := d } }

/-- An event of the diagnostics hook. -/
def isDiag (e : Event) : Bool :=
  match e with
  | .diag _ => true
  | .pinDir _ _ => false
  | .pinLevel _ _ => false
  | .exchange _ _ => false
  | .ret _ => false

/-- What is left of a state without the hook: its presence and its events taken out. -/
def withoutDiag (s : State) : State :=
  { withDiag false s with trace := s.trace.filter fun e => !isDiag e }

/-- The two words that are not decoded (spec/30_encoding.md R52). -/
abbrev specialWord (w : Word) : Prop := w = 0x00000000#32 ∨ w = 0xFFFFFFFF#32

/-- What a pass makes of a slot whose word is `w` (spec/41_retrieve_and_decode.md R84, R85). -/
def slotAfter (w : Word) (old : Slot) : Slot :=
  if specialWord w then { tc := old.tc, amb := old.amb, flt := .busError }
  else { tc := tcRaw w, amb := ambRaw w, flt := faultClass w }

end Sys2Proof.Claims

open Sys2Proof Sys2Proof.Machine Sys2Proof.Claims

/-- If the block is not BUSY and the host's next command word decodes to an operation i, step at that state is exec of i
at the state with that word taken from the host's commands and nothing else changed. The command words are the spec's
own choice (D8); that a step takes one from a list held in State is the model's (notes/assumptions/3.md). Rests on
00_scope.md section 2 (Agents); 30_encoding.md section 4 (Commands); 92_eei_decisions.md D8. -/
def Obligations.StepRunsDecodedCommand : Prop :=
  ∀ (s : State) (c : Byte) (rest : List Byte) (i : Instr),
    s.busy = false → s.cmds = c :: rest → decodeByte c = .ok i →
      step s = exec i { s with cmds := rest }

/-- For every well-formed operation i: if the block is not BUSY and the host's commands begin with the encoding of i, step
at that state is exec of i at the state with that encoding taken from the commands. The encoding is the spec's own
choice (D8). Rests on 30_encoding.md section 4 (Commands); 92_eei_decisions.md D8. -/
def Obligations.StepRunsEncodedOperation : Prop :=
  ∀ (i : Instr) (s : State) (rest : List Byte),
    i.wf → s.busy = false → s.cmds = encode i ++ rest →
      step s = exec i { s with cmds := rest }

/-- If a table row's word decodes to an operation i, the very next step of a state with that word placed as the host's
next command is exec of i at that state with no pass in progress and the other commands still waiting. The model's own
placing of a command (notes/assumptions/3.md). Rests on 00_scope.md section 2 (Agents); 92_eei_decisions.md D8, D10. -/
def Obligations.FetchWordRunsNext : Prop :=
  ∀ (s : State) (w : Nat) (i : Instr),
    decodeTableWord 8 w = some i →
      step (s.withFetchWord 8 w) = exec i { s with pass := none }

/-- A command word decodes to no operation exactly when it is in one of the three groups of reserved words (OP 0xA to 0xF;
OP 0 to 4 with a non-zero low nibble; OP 5 to 9 with Z = 1); there are 211 of them; and a step whose next command is
reserved is refused as a reserved command. The refusal is the spec's own choice (D9). Rests on 30_encoding.md section
4 (Commands); 60_exceptions.md section 1 (The error taxonomy); 92_eei_decisions.md D9. -/
def Obligations.ReservedWordsRefused : Prop :=
  (∀ c : Byte, (∃ e, decodeByte c = .error e) ↔ reservedWord c) ∧
  ((List.range 256).filter fun k => decide (reservedWord (BitVec.ofNat 8 k))).length = 211 ∧
  ∀ (s : State) (c : Byte) (rest : List Byte),
    s.busy = false → s.cmds = c :: rest → reservedWord c →
      ∃ e, step s = .refused (.reservedCommand c e)

/-- For every well-formed operation, with every index value its field admits, and whatever bytes follow: decoding its
encoding gives the operation and the bytes that follow. The encoding is the spec's own choice (D8). Rests on
30_encoding.md section 4 (Commands); 92_eei_decisions.md D8. -/
def Obligations.DecodeOfEncodeIsIdentity : Prop :=
  ∀ (i : Instr) (rest : List Byte), i.wf → decode (encode i ++ rest) = .ok (i, rest)

/-- If a command word decodes to an operation, that operation is well formed and its encoding is the word: no two words
spell one operation. The encoding is the spec's own choice (D8). Rests on 30_encoding.md section 4 (Commands);
92_eei_decisions.md D8. -/
def Obligations.EncodeOfDecodeIsIdentity : Prop :=
  ∀ (c : Byte) (i : Instr), decodeByte c = .ok i → i.wf ∧ encodeByte i = c

/-- One word of each row of the operation map, written out bit by bit, decodes to the row's operation. The words are the
spec's own choice (D8). Rests on 30_encoding.md section 4 (Commands); 95_test_vectors.md section 2.7. -/
def Obligations.CommandWordsOfTheMap : Prop :=
  decodeByte 0b00000000#8 = .ok .init ∧
  decodeByte 0b00010000#8 = .ok .pwrOn ∧
  decodeByte 0b00100000#8 = .ok .pwrOff ∧
  decodeByte 0b00110000#8 = .ok .teardown ∧
  decodeByte 0b01000000#8 = .ok .retrieve ∧
  decodeByte 0b01010111#8 = .ok (.getTcC 7) ∧
  decodeByte 0b01100001#8 = .ok (.getTcF 1) ∧
  decodeByte 0b01110010#8 = .ok (.getAmbC 2) ∧
  decodeByte 0b10000000#8 = .ok (.getAmbF 0) ∧
  decodeByte 0b10010100#8 = .ok (.getFault 4)

/-- If the block is not BUSY and the host has no command waiting, a step changes nothing. That the end of a run is such a
step is the spec's choice (D33). Rests on 70_reset_and_hazards.md section 5 (The end of a run); 92_eei_decisions.md
D33. -/
def Obligations.IdleHoldsState : Prop :=
  ∀ s : State, s.busy = false → s.cmds = [] → step s = .next s

/-- In a QTC-DEC configuration with the block not BUSY, every operation, with every index, answers a next state; and the
block is BUSY there only if the operation is RETRIEVE and one of its 4 * N coming exchanges never returns. No order of
operations is enforced: the spec's reading (D33, D35). Rests on 40_lifecycle_and_pins.md section Properties of the
family; 60_exceptions.md section 3 (No trap entry, no trap return); 92_eei_decisions.md D33, D35. -/
def Obligations.OperationsAcceptedWhenReady : Prop :=
  ∀ (i : Instr) (s : State), Ready s →
    ∃ t, exec i s = .next t ∧
      (t.busy = true → i = .retrieve ∧ ∃ k < 4 * s.cfg.n, replyAt s k = .never)

/-- In a state in which the block is BUSY (and the configuration is a QTC-DEC), every operation is refused as a host's
move while BUSY, a step stops on the blocked exchange whatever commands wait, and the state is not final. The refusal
is the spec's choice (U6, D19). Rests on 70_reset_and_hazards.md section 3 (Hazards); 93_implementation_defined.md U6;
92_eei_decisions.md D19. -/
def Obligations.HostHasNoMoveWhileBusy : Prop :=
  ∀ (i : Instr) (s : State), configOk s.cfg = true → s.busy = true →
    exec i s = .refused .hostMoveWhileBusy ∧ step s = .fault .blockedExchange ∧
      finalState s = false

/-- The configuration check holds exactly when N is 1 to 4, the chip-select pins are pairwise distinct and none is the
power pin; where it does not hold every operation is refused. The refusal is the spec's choice (D20, D21). Rests on
00_scope.md section 4 (Implementation parameters); 93_implementation_defined.md U8, U9; 92_eei_decisions.md D20, D21. -/
def Obligations.OnlyQtcDecConfigurationsRun : Prop :=
  (∀ c : Config, configOk c = true ↔
    1 ≤ c.n ∧ c.n ≤ 4 ∧ c.pwrPin ∉ c.csPins ∧
      ∀ i j, i < c.n → j < c.n → csPin c i = csPin c j → i = j) ∧
  ∀ (i : Instr) (s : State), configOk s.cfg = false → exec i s = .refused .notAConfiguration

/-- After CONSTRUCT, for every configuration, and after every INIT, every one of the N slots holds TC = 0, AMB = 0, FLT =
None; and with the store so, for every valid index GETTC_C and GETAMB_C return 0, GETTC_F and GETAMB_F return 32, and
GETFAULT returns None (code 0). Every operation named answers a next state. The store's values are R28's own; the
accessor clause is the spec's inference in R28 ('Consequences a model can test: right after reset ...'), which it
marks derived from rules R93, R95, R97 to R101, and the code 0 of None is the spec's choice D4. Rests on 10_state.md
section 7 (Reset values); 10_state.md section 7, the sentence beginning 'Consequences a model can test', marked
derived; 42_accessors_and_conversion.md sections 2 and 4. -/
def Obligations.ResetClearsChannelStore : Prop :=
  (∀ c : Config,
    (State.construct c).store = List.replicate c.n { tc := 0#16, amb := 0#16, flt := .none }) ∧
  (∀ s : State, Ready s → shaped s →
    ∃ t, exec .init s = .next t ∧
      t.store = List.replicate s.cfg.n { tc := 0#16, amb := 0#16, flt := .none }) ∧
  ∀ (s : State) (idx : Nat), Ready s →
    s.store = List.replicate s.cfg.n { tc := 0#16, amb := 0#16, flt := .none } →
    1 ≤ idx → idx ≤ s.cfg.n →
      (∃ t, exec (.getTcC idx) s = .next t ∧ lastResult t = some 0#16) ∧
      (∃ t, exec (.getTcF idx) s = .next t ∧ lastResult t = some 32#16) ∧
      (∃ t, exec (.getAmbC idx) s = .next t ∧ lastResult t = some 0#16) ∧
      (∃ t, exec (.getAmbF idx) s = .next t ∧ lastResult t = some 32#16) ∧
      ∃ t, exec (.getFault idx) s = .next t ∧ lastResult t = some (faultCode .none)

/-- For every configuration, the state after CONSTRUCT has that configuration, both registers of every one of the N + 1
pins unwritten, the block not BUSY, and an empty event trace. That CONSTRUCT is the reset and that pins are unwritten
are the spec's choices (D29, D17). Rests on 10_state.md section 7 (Reset values); 40_lifecycle_and_pins.md section
CONSTRUCT; 92_eei_decisions.md D17, D29. -/
def Obligations.ConstructWritesNoPin : Prop :=
  ∀ c : Config,
    (State.construct c).cfg = c ∧
    (State.construct c).pwr = { dir := .unwritten, lvl := .unwritten } ∧
    (State.construct c).cs = List.replicate c.n { dir := .unwritten, lvl := .unwritten } ∧
    (State.construct c).busy = false ∧ (State.construct c).trace = []

/-- State.reset meets the invariant, and so does the state after CONSTRUCT with any configuration of 1 to 4 channels on
distinct pins. (The configuration of State.reset itself is the model's choice, notes/assumptions/2.md.) Rests on
10_state.md sections 2 and 7; 00_scope.md section 4 (Implementation parameters). -/
def Obligations.ResetMeetsTheInvariant : Prop :=
  State.reset.Inv ∧ ∀ c : Config, configOk c = true → (State.construct c).Inv

/-- From every state that meets the invariant, a step that answers a next state answers one that meets it: the
configuration is a QTC-DEC, there are N slots and N chip-select lines, every TC is in -8192..8191 and every AMB in
-2048..2047, the power pin was never made an input, a chip-select line is LOW exactly while a pass stands in that
channel, and that channel is one of 1 to N. Rests on 10_state.md section 2 (The channel store); 10_state.md section 4
(Pin state); 20_memory.md section 2 (The collaborator primitives); 20_memory.md section 4. -/
def Obligations.StepKeepsTheInvariant : Prop :=
  ∀ s t : State, s.Inv → step s = .next t → t.Inv

/-- Whatever operation runs, and whatever step is taken, if it answers a next state the configuration there (N, the pin
identifiers, DIV_ROUND, DIAG_ENABLE) is what it was; INIT included (the spec's choice D30). Rests on 10_state.md
section 3 (Configuration); 92_eei_decisions.md D30. -/
def Obligations.ConfigurationNeverChanges : Prop :=
  (∀ (i : Instr) (s t : State), exec i s = .next t → t.cfg = s.cfg) ∧
  ∀ s t : State, step s = .next t → t.cfg = s.cfg

/-- In every state that is not BUSY (N slots and N lines), INIT answers a next state in which every slot is (0, 0, None),
PWR_DIR is OUTPUT and PWR_LVL is LOW (the chips powered off), and every CS_DIR[i] is OUTPUT and every CS_LVL[i] is
HIGH, whatever any of them was before. Formalises R122. -/
def Obligations.SoftResetProgramsPins : Prop :=
  ∀ s : State, Ready s → shaped s →
    ∃ t, exec .init s = .next t ∧
      t.store = List.replicate s.cfg.n { tc := 0#16, amb := 0#16, flt := .none } ∧
      t.pwr = { dir := .wrote .output, lvl := .wrote .low } ∧
      t.cs = List.replicate s.cfg.n { dir := .wrote .output, lvl := .wrote .high }

/-- In every state that is not BUSY (N slots and N lines), INIT answers the state with the store cleared, the pins
programmed, and the trace extended by the power pin's direction, the chip-select directions, the chip-select levels
and the power level, in that order; everything else is as it was. That it emits no Diag (D14) and the ascending order
inside each group (D31) are the spec's choices. Rests on 40_lifecycle_and_pins.md section INIT; 92_eei_decisions.md
D14, D31. -/
def Obligations.InitWholeEffect : Prop :=
  ∀ s : State, Ready s → shaped s →
    exec .init s = .next
      { s with
        store := List.replicate s.cfg.n { tc := 0#16, amb := 0#16, flt := .none }
        pwr := { dir := .wrote .output, lvl := .wrote .low }
        cs := List.replicate s.cfg.n { dir := .wrote .output, lvl := .wrote .high }
        trace := s.trace ++ [.pinDir s.cfg.pwrPin .output]
          ++ s.cfg.csPins.map (fun p => .pinDir p .output)
          ++ s.cfg.csPins.map (fun p => .pinLevel p .high)
          ++ [.pinLevel s.cfg.pwrPin .low] }

/-- In every state that is not BUSY, PWRON (command word 0x10) answers the state with every chip-select level HIGH, the
power level HIGH, and the trace extended by the chip-select levels and then the power level; the store, the pin
directions and everything else are as they were. (The command byte is the spec's own choice, D8, restated because R67
names it; "for all i" is ascending, R72.) Formalises R67. -/
def Obligations.PowerOnWholeEffect : Prop :=
  encodeByte .pwrOn = 0x10#8 ∧
  ∀ s : State, Ready s →
    exec .pwrOn s = .next
      { s with
        cs := s.cs.map fun c => { c with lvl := .wrote .high }
        pwr := { s.pwr with lvl := .wrote .high }
        trace := s.trace ++ s.cfg.csPins.map (fun p => .pinLevel p .high)
          ++ [.pinLevel s.cfg.pwrPin .high] }

/-- In every state that is not BUSY, PWROFF (command word 0x20) answers the state with the power level LOW, every
chip-select level HIGH, and the trace extended by the power level and then the chip-select levels; the store keeps the
last pass's values and everything else is as it was. (The command byte is the spec's own choice, D8, restated because
R68 names it; "for all i" is ascending, R72.) Formalises R68. -/
def Obligations.PowerOffWholeEffect : Prop :=
  encodeByte .pwrOff = 0x20#8 ∧
  ∀ s : State, Ready s →
    exec .pwrOff s = .next
      { s with
        pwr := { s.pwr with lvl := .wrote .low }
        cs := s.cs.map fun c => { c with lvl := .wrote .high }
        trace := s.trace ++ [.pinLevel s.cfg.pwrPin .low]
          ++ s.cfg.csPins.map (fun p => .pinLevel p .high) }

/-- In every state that is not BUSY, TEARDOWN (command word 0x30) answers the state with the power level LOW, every
chip-select direction INPUT, and the trace extended by the power level and then the chip-select directions; no
chip-select level, not the power pin's direction, not the store, and nothing else changes, and any operation is still
accepted afterwards. (The command byte is the spec's own choice, D8, restated because R69 names it.) Formalises R69. -/
def Obligations.TeardownWholeEffect : Prop :=
  encodeByte .teardown = 0x30#8 ∧
  ∀ s : State, Ready s →
    ∃ t, exec .teardown s = .next t ∧
      t = { s with
            pwr := { s.pwr with lvl := .wrote .low }
            cs := s.cs.map fun c => { c with dir := .wrote .input }
            trace := s.trace ++ [.pinLevel s.cfg.pwrPin .low]
              ++ s.cfg.csPins.map (fun p => .pinDir p .input) } ∧
      ∀ i : Instr, ∃ u, exec i t = .next u

/-- For PWRON, PWROFF and TEARDOWN: if the operation answers a next state, the store there is the store before, and from
the same state with any other store it answers the same next state with that other store. Formalises R71. -/
def Obligations.PowerOperationsIgnoreStore : Prop :=
  ∀ (i : Instr) (s t : State), i = .pwrOn ∨ i = .pwrOff ∨ i = .teardown →
    exec i s = .next t →
      t.store = s.store ∧
      ∀ st : List Slot, exec i (withStore st s) = .next (withStore st t)

/-- For each of the four pin operations, in every state that is not BUSY: it can be issued twice, the state after the
second equals the state after the first in everything but the trace, and the second adds to the trace exactly the
events the first added. (The spec derives this for the three besides PWROFF.) Rests on 40_lifecycle_and_pins.md
section Properties of the family. -/
def Obligations.PinOperationsAreIdempotent : Prop :=
  ∀ (i : Instr) (s : State), i = .init ∨ i = .pwrOn ∨ i = .pwrOff ∨ i = .teardown → Ready s →
    ∃ (t u : State) (es : List Event), exec i s = .next t ∧ exec i t = .next u ∧
      t.trace = s.trace ++ es ∧ u = { t with trace := t.trace ++ es }

/-- For all bytes, assemble b0 b1 b2 b3 is the word whose number is b0 * 2^24 + b1 * 2^16 + b2 * 2^8 + b3; it is a
bijection between byte quadruples and words; and assemble of F0 61 C9 01 is 0xF061C901. Formalises R77. -/
def Obligations.AssembleMostSignificantFirst : Prop :=
  (∀ b0 b1 b2 b3 : Byte, (assemble b0 b1 b2 b3).toNat =
    b0.toNat * 2 ^ 24 + b1.toNat * 2 ^ 16 + b2.toNat * 2 ^ 8 + b3.toNat) ∧
  Function.Bijective
    (fun q : Byte × Byte × Byte × Byte => assemble q.1 q.2.1 q.2.2.1 q.2.2.2) ∧
  assemble 0xF0#8 0x61#8 0xC9#8 0x01#8 = 0xF061C901#32

/-- isBusError holds of exactly 0x00000000 and 0xFFFFFFFF; of an assembled word exactly when all four bytes are 0x00 or
all four are 0xFF; and it does not hold of 0x00000001, 0xFFFFFFFE, 0x00FFFFFF and 0xFF000000. Formalises R78. -/
def Obligations.BusErrorIsAllZerosOrAllOnes : Prop :=
  (∀ w : Word, isBusError w = true ↔ w = 0x00000000#32 ∨ w = 0xFFFFFFFF#32) ∧
  (∀ b0 b1 b2 b3 : Byte, isBusError (assemble b0 b1 b2 b3) = true ↔
    (b0 = 0x00#8 ∧ b1 = 0x00#8 ∧ b2 = 0x00#8 ∧ b3 = 0x00#8) ∨
    (b0 = 0xFF#8 ∧ b1 = 0xFF#8 ∧ b2 = 0xFF#8 ∧ b3 = 0xFF#8)) ∧
  isBusError 0x00000001#32 = false ∧ isBusError 0xFFFFFFFE#32 = false ∧
  isBusError 0x00FFFFFF#32 = false ∧ isBusError 0xFF000000#32 = false

/-- For every word, the integer the 16-bit register holds is the 14-bit field W[31:18] read as two's complement (the field
when its bit 13 is clear, the field minus 2^14 when set); it lies in -8192..8191; it is negative exactly when W[31] =
1; and the five example words decode as listed. Formalises R79. -/
def Obligations.ThermocoupleRawValue : Prop :=
  (∀ w : Word,
    (tcRaw w).toInt =
      (if w.toNat / 2 ^ 18 < 2 ^ 13 then ((w.toNat / 2 ^ 18 : Nat) : Int)
       else ((w.toNat / 2 ^ 18 : Nat) : Int) - 2 ^ 14) ∧
    -8192 ≤ (tcRaw w).toInt ∧ (tcRaw w).toInt ≤ 8191 ∧
    ((tcRaw w).toInt < 0 ↔ w.getLsbD 31 = true)) ∧
  (tcRaw 0x06400000#32).toInt = 400 ∧ (tcRaw 0xFFFC0000#32).toInt = -1 ∧
  (tcRaw 0x80000000#32).toInt = -8192 ∧ (tcRaw 0x7FFC0000#32).toInt = 8191 ∧
  (tcRaw 0x0003FFFF#32).toInt = 0

/-- For every word, the integer the 16-bit register holds is the 12-bit field W[15:4] read as two's complement; it lies in
-2048..2047; it is negative exactly when W[15] = 1; and the five example words decode as listed. Formalises R80. -/
def Obligations.AmbientRawValue : Prop :=
  (∀ w : Word,
    (ambRaw w).toInt =
      (if w.toNat / 2 ^ 4 % 2 ^ 12 < 2 ^ 11 then ((w.toNat / 2 ^ 4 % 2 ^ 12 : Nat) : Int)
       else ((w.toNat / 2 ^ 4 % 2 ^ 12 : Nat) : Int) - 2 ^ 12) ∧
    -2048 ≤ (ambRaw w).toInt ∧ (ambRaw w).toInt ≤ 2047 ∧
    ((ambRaw w).toInt < 0 ↔ w.getLsbD 15 = true)) ∧
  (ambRaw 0x00001900#32).toInt = 400 ∧ (ambRaw 0x0000FFF0#32).toInt = -1 ∧
  (ambRaw 0x00008000#32).toInt = -2048 ∧ (ambRaw 0x00007FF0#32).toInt = 2047 ∧
  (ambRaw 0xFFFF000F#32).toInt = 0

/-- The classification of a word is the table of its low three bits: 0 is None, 1 is Disconnected, 2 and 3 are
ShortToGround, 4 to 7 are ShortToSupply. That no flag means None is the spec's own reading (D13), and the order of
evaluation is its resolution of a conflict (C1). Rests on 41_retrieve_and_decode.md section 1 (Pure functions of the
word); 90_conflicts.md C1; 92_eei_decisions.md D13. -/
def Obligations.FaultClassPriority : Prop :=
  ∀ w : Word,
    (w.toNat % 8 = 0 → faultClass w = .none) ∧
    (w.toNat % 8 = 1 → faultClass w = .disconnected) ∧
    (w.toNat % 8 = 2 ∨ w.toNat % 8 = 3 → faultClass w = .shortToGround) ∧
    (4 ≤ w.toNat % 8 → faultClass w = .shortToSupply)

/-- tc_raw depends only on W[31:18], amb_raw only on W[15:4], fault_class only on W[2:0]; fault_class is never BusError;
and every combination of a thermocouple value in -8192..8191, an ambient value in -2048..2047 and a class other than
BusError is produced by some word that is not a bus error, (0, 0, None) and (-1, -1, ShortToSupply) included. (The
spec derives these.) Rests on 41_retrieve_and_decode.md section 1 (Pure functions of the word); 30_encoding.md section
1 (The response word). -/
def Obligations.FieldsAreIndependentAndFull : Prop :=
  (∀ v w : Word, v.toNat / 2 ^ 18 = w.toNat / 2 ^ 18 → tcRaw v = tcRaw w) ∧
  (∀ v w : Word, v.toNat / 2 ^ 4 % 2 ^ 12 = w.toNat / 2 ^ 4 % 2 ^ 12 → ambRaw v = ambRaw w) ∧
  (∀ v w : Word, v.toNat % 8 = w.toNat % 8 → faultClass v = faultClass w) ∧
  (∀ w : Word, faultClass w ≠ .busError) ∧
  ∀ (a b : Int) (f : FaultClass), -8192 ≤ a → a ≤ 8191 → -2048 ≤ b → b ≤ 2047 → f ≠ .busError →
    ∃ w : Word, isBusError w = false ∧ (tcRaw w).toInt = a ∧ (ambRaw w).toInt = b ∧ faultClass w = f

/-- For a channel ch of 1 to N: if the four coming exchanges are answered with bytes b 0 to b 3, EXCH4 is done, W is their
assembly, CS_LVL[i] is HIGH, the trace is extended by the level LOW, the four exchanges in order and the level HIGH,
the four answers are used up, and no channel register nor anything else changes; if one of the four never answers,
EXCH4 never completes: it is blocked with CS_LVL[i] LOW and the store as it was. (The bytes sent are free values.)
Formalises R83. -/
def Obligations.ExchangeFrameOfOneChip : Prop :=
  ∀ (p : Pass) (s : State) (b : Nat → Byte), 1 ≤ p.ch → p.ch ≤ s.cs.length →
    (Answers b 4 s →
      exch4 p s = .done { p with w := assemble (b 0) (b 1) (b 2) (b 3) }
        { s with
          pass := some { p with w := assemble (b 0) (b 1) (b 2) (b 3) }
          cs := s.cs.modify (p.ch - 1) fun c => { c with lvl := .wrote .high }
          replies := s.replies.drop 4
          xcount := s.xcount + 4
          trace := s.trace ++
            [.pinLevel (csPin s.cfg (p.ch - 1)) .low,
             .exchange (Config.dummyByte s.xcount) (b 0),
             .exchange (Config.dummyByte (s.xcount + 1)) (b 1),
             .exchange (Config.dummyByte (s.xcount + 2)) (b 2),
             .exchange (Config.dummyByte (s.xcount + 3)) (b 3),
             .pinLevel (csPin s.cfg (p.ch - 1)) .high] }) ∧
    ∀ k < 4, Answers b k s → replyAt s k = .never →
      ∃ t, exch4 p s = .blocked t ∧ csLvlAt t (p.ch - 1) = .wrote .low ∧ t.store = s.store

/-- For a channel whose slot exists and a word that is not a bus error, DECODE answers the state whose slot is (tc_raw W,
amb_raw W, fault_class W), whatever it held, BusError included, and which is otherwise as it was: no other slot, no
Diag event; 0xF061C901 stores (-1000, -880, Disconnected). Formalises R84. -/
def Obligations.DecodeStoresTriple : Prop :=
  (∀ (p : Pass) (s : State) (old : Slot), s.store[p.ch - 1]? = some old → ¬ specialWord p.w →
    decodeChannel p s =
      { s with
        store := s.store.set (p.ch - 1) { tc := tcRaw p.w, amb := ambRaw p.w, flt := faultClass p.w } }) ∧
  isBusError 0xF061C901#32 = false ∧ (tcRaw 0xF061C901#32).toInt = -1000 ∧
  (ambRaw 0xF061C901#32).toInt = -880 ∧ faultClass 0xF061C901#32 = .disconnected

/-- For a channel whose slot exists and a word of all zeros or all ones, DECODE sets that slot's FLT to BusError, keeps
its TC and AMB, emits one Diag(BusErrorKind) when DIAG_ENABLE and none otherwise, and changes nothing else; and when
the four bytes of a channel assemble to such a word, that channel's step is done and the pass goes on with the
remaining channels. The slot (400, 25, None) and the word 0xFFFFFFFF give (400, 25, BusError). Formalises R85. -/
def Obligations.DecodeOfSpecialWord : Prop :=
  (∀ (p : Pass) (s : State) (old : Slot), s.store[p.ch - 1]? = some old → specialWord p.w →
    decodeChannel p s =
      { s with
        store := s.store.set (p.ch - 1) { tc := old.tc, amb := old.amb, flt := .busError }
        trace := s.trace ++ (if s.cfg.diagEnable then [.diag .busErrorKind] else []) }) ∧
  (∀ (ch : Nat) (rest : List Nat) (p : Pass) (s : State) (b : Nat → Byte), Answers b 4 s →
    specialWord (assemble (b 0) (b 1) (b 2) (b 3)) →
      ∃ (p' : Pass) (s' : State),
        exch4 { p with ch := ch } s = .done p' s' ∧ p'.ch = ch ∧
        p'.w = assemble (b 0) (b 1) (b 2) (b 3) ∧
        passLoop (ch :: rest) p s = passLoop rest p' (decodeChannel p' s')) ∧
  decodeSlot 0xFFFFFFFF#32 { tc := 400#16, amb := 25#16, flt := .none } =
    { tc := 400#16, amb := 25#16, flt := .busError }

/-- In every state that is not BUSY (N slots and N lines), if the 4 * N coming exchanges are answered with bytes b,
RETRIEVE (command word 0x40) answers the state in which, for every channel i, the slot is BusError with its
temperatures kept when its word is all zeros or all ones and the decoded triple otherwise; every chip-select level is
HIGH; the answers are used up; the trace is extended by the N frames in ascending order, each followed by its
diagnostics, and by the return of GOOD; the block is not BUSY and everything else is as it was. GOOD is the number of
channels with FLT = None after the pass, which is the number of channels whose word is valid with W[2:0] = 0, and is
at most N. (That GOOD is the number of valid words with W[2:0] = 0 is the spec's own inference in R86, which it marks
derived from rules R81, R84, R85, and rests on its choice D13 that a valid word with no flag set is None,
notes/assumptions/22.md. The command byte is the spec's own choice D8.) Rests on 41_retrieve_and_decode.md section 1
(Pure functions of the word); 41_retrieve_and_decode.md section 2 (Micro-operations); 41_retrieve_and_decode.md
section 3 (RETRIEVE); 92_eei_decisions.md D8, D13. -/
def Obligations.RetrieveWholePass : Prop :=
  encodeByte .retrieve = 0x40#8 ∧
  ∀ (s : State) (b : Nat → Byte), Ready s → shaped s → Answers b (4 * s.cfg.n) s →
    ∃ (t : State) (good : Nat), exec .retrieve s = .next t ∧
      t = { s with
            store := s.store.mapIdx fun i old => slotAfter (wordOf b i) old
            cs := s.cs.map fun c => { c with lvl := .wrote .high }
            replies := s.replies.drop (4 * s.cfg.n)
            xcount := s.xcount + 4 * s.cfg.n
            trace := s.trace ++ passEvents s.cfg b s.xcount 0 s.cfg.n ++
              [.ret (BitVec.ofNat 16 good)] } ∧
      good = t.store.countP (fun c => c.flt == .none) ∧
      good = (List.range s.cfg.n).countP
        (fun i => decide (¬ specialWord (wordOf b i) ∧ (wordOf b i).toNat % 8 = 0)) ∧
      good ≤ s.cfg.n ∧ lastResult t = some (BitVec.ofNat 16 good) ∧ t.busy = false

/-- Whatever operation other than the reset INIT answers a next state, each slot there is the slot before, or, only if the
operation is RETRIEVE and every exchange up to the end of that slot's own frame was answered, what the word W of that
frame (the four answers 4 * k to 4 * k + 3 of slot k, first byte most significant) makes of it: the whole triple
decoded from W when W is valid, or the slot before with FLT alone set to BusError when W is all zeros or all ones. So
a triple is always that of one word, and a temperature is never written without the rest. A pass that blocks in an
exchange is included. Formalises R21. -/
def Obligations.RetrieveStoreDiscipline : Prop :=
  ∀ (i : Instr) (s t : State), i ≠ .init → exec i s = .next t →
    t.store.length = s.store.length ∧
    ∀ (k : Nat) (old new : Slot), s.store[k]? = some old → t.store[k]? = some new →
      new = old ∨
      i = .retrieve ∧ k < s.cfg.n ∧ ∃ b : Nat → Byte, Answers b (4 * k + 4) s ∧
        ((¬ specialWord (wordOf b k) ∧
            new = { tc := tcRaw (wordOf b k), amb := ambRaw (wordOf b k), flt := faultClass (wordOf b k) }) ∨
          (specialWord (wordOf b k) ∧ new = { old with flt := .busError }))

/-- In every state that is not BUSY (N slots and N lines), if exchange number k of the 4 * N coming ones is the first that
never answers, RETRIEVE leaves the block BUSY in channel k / 4 + 1 with that channel's chip-select LOW; there,
whatever commands or answers the environment adds, no step is enabled and the state is not final. Formalises R44. -/
def Obligations.BlockedExchangeIsStuck : Prop :=
  ∀ (s : State) (b : Nat → Byte) (k : Nat), Ready s → shaped s → k < 4 * s.cfg.n →
    Answers b k s → replyAt s k = .never →
      ∃ t, exec .retrieve s = .next t ∧ t.busy = true ∧ t.pass.map (·.ch) = some (k / 4 + 1) ∧
        csLvlAt t (k / 4) = .wrote .low ∧
        ∀ (cs : List Byte) (rs : List Reply),
          step { t with cmds := cs, replies := rs } = .fault .blockedExchange ∧
          finalState { t with cmds := cs, replies := rs } = false

/-- In every state that is not BUSY (N slots and N lines), if exchange number k of the 4 * N coming ones is the first that
never answers, RETRIEVE answers exactly this state: the store holds this pass's decoded slots for channels 1 to k / 4
and the slots of before the pass for channel k / 4 + 1 and later; the chip-select level of channels 1 to k / 4 is
HIGH, of channel k / 4 + 1 LOW, of the later ones as before; the pass stands in channel k / 4 + 1; the k answers are
used up; the trace is extended by the frames and diagnostics of channels 1 to k / 4, then the level LOW of channel k /
4 + 1 and the k % 4 answered exchanges of its frame, and nothing after; everything else is as it was. (W and GOOD
inside a pass are left open here. The granularity of the pass is the spec's choice D19.) Rests on
41_retrieve_and_decode.md section 2 (Micro-operations); 41_retrieve_and_decode.md section 3 (RETRIEVE); 20_memory.md
section 4; 20_memory.md section 5 (Ordering and synchronisation); 92_eei_decisions.md D19. -/
def Obligations.BlockedPassUpdatedEarlierChannelsOnly : Prop :=
  ∀ (s : State) (b : Nat → Byte) (k : Nat), Ready s → shaped s → k < 4 * s.cfg.n →
    Answers b k s → replyAt s k = .never →
      ∃ (w : Word) (good : Nat), exec .retrieve s = .next
        { s with
          store := s.store.mapIdx fun i old => if i < k / 4 then slotAfter (wordOf b i) old else old
          cs := s.cs.mapIdx fun i c =>
            if i < k / 4 then { c with lvl := .wrote .high }
            else if i = k / 4 then { c with lvl := .wrote .low } else c
          pass := some { ch := k / 4 + 1, w := w, good := good }
          replies := s.replies.drop k
          xcount := s.xcount + k
          trace := s.trace ++ passEvents s.cfg b s.xcount 0 (k / 4) ++
            [.pinLevel (csPin s.cfg (k / 4)) .low] ++
            (List.range (k % 4)).map fun j =>
              .exchange (Config.dummyByte (s.xcount + (4 * (k / 4) + j))) (b (4 * (k / 4) + j)) }

/-- RETRIEVE's pass is the sequence of its channel steps 1 to k followed by the steps k + 1 to N, for every k up to N; and
after the first k of them, if their 4 * k exchanges are answered with bytes b, the store holds the decoded slots for
channels 1 to k and the slots of before the pass for the rest. So one step for the pass agrees with N steps (the
spec's choice D19). Rests on 41_retrieve_and_decode.md section 3 (RETRIEVE); 20_memory.md section 4;
92_eei_decisions.md D19. -/
def Obligations.PassIsAscendingChannelSteps : Prop :=
  ∀ (s : State) (k : Nat) (p : Pass), k ≤ s.cfg.n →
    passLoop (List.range' 1 s.cfg.n) p s =
      (passLoop (List.range' 1 k) p s).andThen
        (fun p' s' => passLoop (List.range' (k + 1) (s.cfg.n - k)) p' s') ∧
    ∀ b : Nat → Byte, Answers b (4 * k) s →
      ∃ (p' : Pass) (s' : State), passLoop (List.range' 1 k) p s = .done p' s' ∧
        s'.store = s.store.mapIdx (fun i old => if i < k then slotAfter (wordOf b i) old else old) ∧
        (0 < k → p'.ch = k ∧ s'.pass = some p')

/-- With the same 4 * N bytes: a pass from a store a first such pass left gives that same store and the same count again;
and if every word is valid, two passes from any two states of one configuration give the same store and the same
count. (The spec derives the second part.) Rests on 41_retrieve_and_decode.md section 3 (RETRIEVE). -/
def Obligations.RetrieveRepeatsOnEqualBytes : Prop :=
  (∀ (s s' t : State) (b : Nat → Byte), Ready s → shaped s → Answers b (4 * s.cfg.n) s →
    exec .retrieve s = .next t →
    Ready s' → shaped s' → s'.cfg = s.cfg → s'.store = t.store → Answers b (4 * s.cfg.n) s' →
      ∃ t', exec .retrieve s' = .next t' ∧ t'.store = t.store ∧ lastResult t' = lastResult t) ∧
  ∀ (s s' : State) (b : Nat → Byte), Ready s → shaped s → Answers b (4 * s.cfg.n) s →
    Ready s' → shaped s' → s'.cfg = s.cfg → Answers b (4 * s.cfg.n) s' →
    (∀ i < s.cfg.n, ¬ specialWord (wordOf b i)) →
      ∃ t t', exec .retrieve s = .next t ∧ exec .retrieve s' = .next t' ∧
        t'.store = t.store ∧ lastResult t' = lastResult t

/-- For every integer a and positive d: under trunc, sdiv is the division that truncates toward zero, is odd in a, its
remainder has the sign of a (or is 0) and magnitude below d, and it is 0 for -d < a < d; under floor it rounds toward
negative infinity; the two agree for a >= 0 and whenever d divides a. That trunc is the value in force is the spec's
choice (D5). Rests on 42_accessors_and_conversion.md section 1 (Integer arithmetic laws); 90_conflicts.md C2;
92_eei_decisions.md D5. -/
def Obligations.DivisionRounding : Prop :=
  ∀ a d : Int, 0 < d →
    sdiv .trunc a d = Int.tdiv a d ∧ sdiv .floor a d = Int.fdiv a d ∧
    sdiv .trunc (-a) d = -sdiv .trunc a d ∧
    (0 ≤ a → 0 ≤ a - d * sdiv .trunc a d ∧ a - d * sdiv .trunc a d < d) ∧
    (a ≤ 0 → -d < a - d * sdiv .trunc a d ∧ a - d * sdiv .trunc a d ≤ 0) ∧
    (-d < a → a < d → sdiv .trunc a d = 0) ∧
    (0 ≤ a ∨ d ∣ a → sdiv .trunc a d = sdiv .floor a d)

/-- For every integer and both roundings, c_quarter is sdiv by 4 and c_sixteenth is sdiv by 16, which under trunc is the
division that truncates toward zero; and the values the two rules list hold, under trunc and under floor. Formalises
R92, R94. -/
def Obligations.CelsiusConversions : Prop :=
  (∀ (m : DivRound) (r : Int), cQuarter m r = sdiv m r 4 ∧ cSixteenth m r = sdiv m r 16) ∧
  (∀ r : Int, cQuarter .trunc r = Int.tdiv r 4 ∧ cSixteenth .trunc r = Int.tdiv r 16 ∧
    cQuarter .floor r = Int.fdiv r 4 ∧ cSixteenth .floor r = Int.fdiv r 16) ∧
  [400, 399, 3, -1, -3, -4, -5, 8191, -8192].map (cQuarter .trunc) =
    [100, 99, 0, 0, 0, -1, -1, 2047, -2048] ∧
  [400, 399, 3, -1, -3, -4, -5, 8191, -8192].map (cQuarter .floor) =
    [100, 99, 0, -1, -1, -1, -2, 2047, -2048] ∧
  [400, 15, 16, -1, -15, -16, -17, 2047, -2048].map (cSixteenth .trunc) =
    [25, 0, 1, 0, 0, -1, -1, 127, -128] ∧
  [-1, -15, -17].map (cSixteenth .floor) = [-1, -1, -2]

/-- For every integer and both roundings, f_quarter is sdiv(sdiv(r * 9, 5), 4) + 32 and f_sixteenth the same with 16 in
place of 4, which under trunc are the truncating divisions in that order; the values the two rules list hold, under
trunc and under floor; and the Fahrenheit value is not the one computed from the Celsius result (34 against 33 for r =
5). Formalises R93, R95. -/
def Obligations.FahrenheitConversions : Prop :=
  (∀ (m : DivRound) (r : Int), fQuarter m r = sdiv m (sdiv m (r * 9) 5) 4 + 32 ∧
    fSixteenth m r = sdiv m (sdiv m (r * 9) 5) 16 + 32) ∧
  (∀ r : Int, fQuarter .trunc r = Int.tdiv (Int.tdiv (r * 9) 5) 4 + 32 ∧
    fSixteenth .trunc r = Int.tdiv (Int.tdiv (r * 9) 5) 16 + 32) ∧
  [0, 400, -160, -1, -3, 3, 8191, -8192].map (fQuarter .trunc) =
    [32, 212, -40, 32, 31, 33, 3717, -3654] ∧
  [-1, -3, -8192].map (fQuarter .floor) = [31, 30, -3655] ∧
  fQuarter .trunc 5 = 34 ∧ sdiv .trunc (cQuarter .trunc 5 * 9) 5 + 32 = 33 ∧
  [0, 400, -640, -1, -17, 2047, -2048].map (fSixteenth .trunc) =
    [32, 77, -40, 32, 31, 262, -198] ∧
  [-1, -17, -2048].map (fSixteenth .floor) = [31, 30, -199]

/-- Under trunc, over all r in -8192..8191 GETTC_C's value lies in -2048..2047 and GETTC_F's in -3654..3717; over all r in
-2048..2047 GETAMB_C's lies in -128..127 and GETAMB_F's in -198..262; under floor the Fahrenheit lower bounds are
-3655 and -199; and under both, reading the 16-bit result as two's complement gives the value back. The 16-bit width
is the spec's choice (D7). Rests on 42_accessors_and_conversion.md section 5 (Properties); 30_encoding.md section 3
(Results); 92_eei_decisions.md D5, D6, D7. -/
def Obligations.ResultsFitSixteenBits : Prop :=
  (∀ r : Int, -8192 ≤ r → r ≤ 8191 →
    -2048 ≤ cQuarter .trunc r ∧ cQuarter .trunc r ≤ 2047 ∧
    -3654 ≤ fQuarter .trunc r ∧ fQuarter .trunc r ≤ 3717 ∧
    -2048 ≤ cQuarter .floor r ∧ cQuarter .floor r ≤ 2047 ∧
    -3655 ≤ fQuarter .floor r ∧ fQuarter .floor r ≤ 3717 ∧
    ∀ m : DivRound, (degrees (cQuarter m r)).toInt = cQuarter m r ∧
      (degrees (fQuarter m r)).toInt = fQuarter m r) ∧
  ∀ r : Int, -2048 ≤ r → r ≤ 2047 →
    -128 ≤ cSixteenth .trunc r ∧ cSixteenth .trunc r ≤ 127 ∧
    -198 ≤ fSixteenth .trunc r ∧ fSixteenth .trunc r ≤ 262 ∧
    -128 ≤ cSixteenth .floor r ∧ cSixteenth .floor r ≤ 127 ∧
    -199 ≤ fSixteenth .floor r ∧ fSixteenth .floor r ≤ 262 ∧
    ∀ m : DivRound, (degrees (cSixteenth m r)).toInt = cSixteenth m r ∧
      (degrees (fSixteenth m r)).toInt = fSixteenth m r

/-- For every integer p, under trunc, sdiv(sdiv(p, 5), 4) = sdiv(p, 20) and sdiv(sdiv(p, 5), 16) = sdiv(p, 80). (The spec
derives this.) Rests on 42_accessors_and_conversion.md section 5 (Properties). -/
def Obligations.NestedDivisionsCollapse : Prop :=
  ∀ p : Int, sdiv .trunc (sdiv .trunc p 5) 4 = sdiv .trunc p 20 ∧
    sdiv .trunc (sdiv .trunc p 5) 16 = sdiv .trunc p 80

/-- In every state that is not BUSY: GETTC_C with an index of 1 to N answers the state whose trace is extended by the
return of c_quarter(TC[i]) in 16-bit two's complement, and which is otherwise unchanged, whatever FLT[i] is; with
index 0 or above N it answers the state whose trace is extended by one Diag(InvalidIndexKind) when DIAG_ENABLE and by
the return of the sentinel 0; no state register changes. Its command word is 0x50 with the index in its low bits (the
spec's own choice, D8, restated because R97 names it). Formalises R97. -/
def Obligations.ThermocoupleCelsiusResult : Prop :=
  (∀ idx < 8, encodeByte (.getTcC idx) = 0x50#8 ||| BitVec.ofNat 8 idx) ∧
  ∀ (s : State) (idx : Nat), Ready s →
    (∀ c : Slot, 1 ≤ idx → idx ≤ s.cfg.n → s.store[idx - 1]? = some c →
      exec (.getTcC idx) s = .next
        { s with trace := s.trace ++ [.ret (BitVec.ofInt 16 (cQuarter s.cfg.divRound c.tc.toInt))] }) ∧
    (idx = 0 ∨ s.cfg.n < idx →
      exec (.getTcC idx) s = .next
        { s with trace := s.trace ++ (if s.cfg.diagEnable then [.diag .invalidIndexKind] else []) ++
            [.ret 0#16] })

/-- In every state that is not BUSY: GETTC_F with an index of 1 to N answers the state whose trace is extended by the
return of f_quarter(TC[i]) in 16-bit two's complement, and which is otherwise unchanged, whatever FLT[i] is; with
index 0 or above N it answers the state whose trace is extended by one Diag(InvalidIndexKind) when DIAG_ENABLE and by
the return of the sentinel 0; no state register changes. Its command word is 0x60 with the index in its low bits (the
spec's own choice, D8, restated because R98 names it). Formalises R98. -/
def Obligations.ThermocoupleFahrenheitResult : Prop :=
  (∀ idx < 8, encodeByte (.getTcF idx) = 0x60#8 ||| BitVec.ofNat 8 idx) ∧
  ∀ (s : State) (idx : Nat), Ready s →
    (∀ c : Slot, 1 ≤ idx → idx ≤ s.cfg.n → s.store[idx - 1]? = some c →
      exec (.getTcF idx) s = .next
        { s with trace := s.trace ++ [.ret (BitVec.ofInt 16 (fQuarter s.cfg.divRound c.tc.toInt))] }) ∧
    (idx = 0 ∨ s.cfg.n < idx →
      exec (.getTcF idx) s = .next
        { s with trace := s.trace ++ (if s.cfg.diagEnable then [.diag .invalidIndexKind] else []) ++
            [.ret 0#16] })

/-- In every state that is not BUSY: GETAMB_C with an index of 1 to N answers the state whose trace is extended by the
return of c_sixteenth(AMB[i]) in 16-bit two's complement, and which is otherwise unchanged, whatever FLT[i] is; with
index 0 or above N it answers the state whose trace is extended by one Diag(InvalidIndexKind) when DIAG_ENABLE and by
the return of the sentinel 0; no state register changes. Its command word is 0x70 with the index in its low bits (the
spec's own choice, D8, restated because R99 names it). Formalises R99. -/
def Obligations.AmbientCelsiusResult : Prop :=
  (∀ idx < 8, encodeByte (.getAmbC idx) = 0x70#8 ||| BitVec.ofNat 8 idx) ∧
  ∀ (s : State) (idx : Nat), Ready s →
    (∀ c : Slot, 1 ≤ idx → idx ≤ s.cfg.n → s.store[idx - 1]? = some c →
      exec (.getAmbC idx) s = .next
        { s with trace := s.trace ++ [.ret (BitVec.ofInt 16 (cSixteenth s.cfg.divRound c.amb.toInt))] }) ∧
    (idx = 0 ∨ s.cfg.n < idx →
      exec (.getAmbC idx) s = .next
        { s with trace := s.trace ++ (if s.cfg.diagEnable then [.diag .invalidIndexKind] else []) ++
            [.ret 0#16] })

/-- In every state that is not BUSY: GETAMB_F with an index of 1 to N answers the state whose trace is extended by the
return of f_sixteenth(AMB[i]) in 16-bit two's complement, and which is otherwise unchanged, whatever FLT[i] is; with
index 0 or above N it answers the state whose trace is extended by one Diag(InvalidIndexKind) when DIAG_ENABLE and by
the return of the sentinel 0; no state register changes. Its command word is 0x80 with the index in its low bits (the
spec's own choice, D8, restated because R100 names it). Formalises R100. -/
def Obligations.AmbientFahrenheitResult : Prop :=
  (∀ idx < 8, encodeByte (.getAmbF idx) = 0x80#8 ||| BitVec.ofNat 8 idx) ∧
  ∀ (s : State) (idx : Nat), Ready s →
    (∀ c : Slot, 1 ≤ idx → idx ≤ s.cfg.n → s.store[idx - 1]? = some c →
      exec (.getAmbF idx) s = .next
        { s with trace := s.trace ++ [.ret (BitVec.ofInt 16 (fSixteenth s.cfg.divRound c.amb.toInt))] }) ∧
    (idx = 0 ∨ s.cfg.n < idx →
      exec (.getAmbF idx) s = .next
        { s with trace := s.trace ++ (if s.cfg.diagEnable then [.diag .invalidIndexKind] else []) ++
            [.ret 0#16] })

/-- In every state that is not BUSY: GETFAULT with an index of 1 to N answers the state whose trace is extended by the
return of the code of FLT[i], and which is otherwise unchanged, whatever FLT[i] is; with index 0 or above N it answers
the state whose trace is extended by one Diag(InvalidIndexKind) when DIAG_ENABLE and by the return of the sentinel 4
(BusError); no state register changes. Its command word is 0x90 with the index in its low bits (the spec's own choice,
D8, restated because R101 names it). Formalises R101. -/
def Obligations.FaultResult : Prop :=
  (∀ idx < 8, encodeByte (.getFault idx) = 0x90#8 ||| BitVec.ofNat 8 idx) ∧
  ∀ (s : State) (idx : Nat), Ready s →
    (∀ c : Slot, 1 ≤ idx → idx ≤ s.cfg.n → s.store[idx - 1]? = some c →
      exec (.getFault idx) s = .next
        { s with trace := s.trace ++ [.ret (faultCode c.flt)] }) ∧
    (idx = 0 ∨ s.cfg.n < idx →
      exec (.getFault idx) s = .next
        { s with trace := s.trace ++ (if s.cfg.diagEnable then [.diag .invalidIndexKind] else []) ++
            [.ret (faultCode .busError)] })

/-- The 16-bit code of None is 0, of ShortToSupply 1, of ShortToGround 2, of Disconnected 3, of BusError 4; and two
classifications with one code are one. The numbers are the spec's choice (D4). Rests on 30_encoding.md section 2 (The
fault classification code); 92_eei_decisions.md D4. -/
def Obligations.FaultCodesAreTheListed : Prop :=
  faultCode .none = 0#16 ∧ faultCode .shortToSupply = 1#16 ∧ faultCode .shortToGround = 2#16 ∧
  faultCode .disconnected = 3#16 ∧ faultCode .busError = 4#16 ∧
  ∀ f g : FaultClass, faultCode f = faultCode g → f = g

/-- For each of the five accessors with index 0 or above N, in every state that is not BUSY and with whatever store it
has: it answers the state whose trace is extended by one Diag(InvalidIndexKind) when DIAG_ENABLE and by the return of
the sentinel (0 for the temperature accessors, the code 4 of BusError for GETFAULT), the store as it was; with an
index of 1 to N whose slot exists, the event it adds to the trace is one return and no diagnostics. Formalises R96. -/
def Obligations.InvalidIndexReadsNothing : Prop :=
  ∀ (i : Instr) (idx : Nat) (s : State), accessorIdx i = some idx → Ready s →
    (idx = 0 ∨ s.cfg.n < idx → ∀ st : List Slot,
      exec i (withStore st s) = .next
        (withStore st
          { s with trace := s.trace ++ (if s.cfg.diagEnable then [.diag .invalidIndexKind] else []) ++
              [.ret (sentinelOf i)] })) ∧
    (1 ≤ idx → idx ≤ s.cfg.n → ∃ v : Res,
      exec i s = .next { s with trace := s.trace ++ [.ret v] })

/-- Each accessor, where it answers a next state, changes the event trace only, and repeated at once returns the same
value. The temperature accessors return the same value whatever classification is stored beside the temperatures (the
spec's choice D22). Rests on 42_accessors_and_conversion.md section 5 (Properties); 92_eei_decisions.md D22. -/
def Obligations.AccessorsWriteNothing : Prop :=
  (∀ (i : Instr) (idx : Nat) (s t : State), accessorIdx i = some idx → exec i s = .next t →
    (∃ es, t = { s with trace := s.trace ++ es }) ∧
    ∃ u, exec i t = .next u ∧ lastResult u = lastResult t) ∧
  ∀ (i : Instr) (idx : Nat) (s t : State) (f : FaultClass), accessorIdx i = some idx →
    i ≠ .getFault idx → exec i s = .next t →
      ∃ u, exec i (withStore (s.store.map fun c => { c with flt := f }) s) = .next u ∧
        lastResult u = lastResult t

/-- Whatever operation answers a next state: unless it is INIT or RETRIEVE the channel store is unchanged; unless INIT,
the power pin's direction; unless INIT, PWRON, PWROFF or TEARDOWN, its level; unless INIT or TEARDOWN, every
chip-select direction; unless INIT, PWRON, PWROFF or RETRIEVE, every chip-select level; unless RETRIEVE, the transient
registers, the waiting answers and the exchange count; and no operation touches the waiting commands. (The spec
derives the matrix; the last two are the model's own fields.) Rests on 10_state.md section 6 (What the block does not
have); 10_state.md section 8 (Flags). -/
def Obligations.WriteMatrix : Prop :=
  ∀ (i : Instr) (s t : State), exec i s = .next t →
    (i ≠ .init → i ≠ .retrieve → t.store = s.store) ∧
    (i ≠ .init → t.pwr.dir = s.pwr.dir) ∧
    (i ≠ .init → i ≠ .pwrOn → i ≠ .pwrOff → i ≠ .teardown → t.pwr.lvl = s.pwr.lvl) ∧
    (i ≠ .init → i ≠ .teardown → t.cs.map (·.dir) = s.cs.map (·.dir)) ∧
    (i ≠ .init → i ≠ .pwrOn → i ≠ .pwrOff → i ≠ .retrieve →
      t.cs.map (·.lvl) = s.cs.map (·.lvl)) ∧
    (i ≠ .retrieve → t.pass = s.pass ∧ t.replies = s.replies ∧ t.xcount = s.xcount) ∧
    t.cmds = s.cmds

/-- Whatever operation or step answers a next state, the trace there is the trace before with events appended: none is
removed, reordered or merged. Rests on 20_memory.md section 5 (Ordering and synchronisation). -/
def Obligations.TraceOnlyGrows : Prop :=
  (∀ (i : Instr) (s t : State), exec i s = .next t → ∃ es, t.trace = s.trace ++ es) ∧
  ∀ s t : State, step s = .next t → ∃ es, t.trace = s.trace ++ es

/-- From every state that meets the invariant, a step that answers a next state leaves at most one chip-select line LOW,
and none when the block is not BUSY. And for the channel steps of any list of channels of 1 to N, from any state with
no LOW line: between channel steps no line is LOW, and where a step blocks, in whichever exchange of its frame,
exactly the line of the channel the pass stands in is LOW, and that channel is one of the list. (The spec derives this
of a pass.) Rests on 20_memory.md section 2 (The collaborator primitives); 41_retrieve_and_decode.md section 2
(Micro-operations); 41_retrieve_and_decode.md section 3 (RETRIEVE). -/
def Obligations.AtMostOneChipSelected : Prop :=
  (∀ s t : State, s.Inv → step s = .next t →
    (∀ i j, i < t.cfg.n → j < t.cfg.n →
      csLvlAt t i = .wrote .low → csLvlAt t j = .wrote .low → i = j) ∧
    ∀ i < t.cfg.n, csLvlAt t i = .wrote .low → t.busy = true) ∧
  ∀ (chs : List Nat) (p : Pass) (s : State), (∀ ch ∈ chs, 1 ≤ ch ∧ ch ≤ s.cs.length) →
    (∀ i, csLvlAt s i ≠ .wrote .low) →
      (∀ (p' : Pass) (t : State), passLoop chs p s = .done p' t → ∀ i, csLvlAt t i ≠ .wrote .low) ∧
      ∀ t : State, passLoop chs p s = .blocked t →
        ∃ q : Pass, t.pass = some q ∧ q.ch ∈ chs ∧ ∀ i, csLvlAt t i = .wrote .low ↔ i = q.ch - 1

/-- For every operation and state: if it answers a next state with the hook absent, that step adds no Diag event, and with
the hook present it answers a next state that is equal to it once the hook's presence and its events are taken out of
both. The hook's existence is an open parameter of the spec (D15). Rests on 60_exceptions.md section 4 (The
diagnostics hook); 92_eei_decisions.md D15. -/
def Obligations.DiagnosticsChangeNothingElse : Prop :=
  ∀ (i : Instr) (s t : State), exec i (withDiag false s) = .next t →
    (∃ es, t.trace = s.trace ++ es ∧ ∀ e ∈ es, isDiag e = false) ∧
    ∃ u, exec i (withDiag true s) = .next u ∧ withoutDiag u = withoutDiag t
end

