-- ==== Sys2Proof/Laws/Decode.lean ====
section
/-! SUPPORT. The command encoding: no two rows overlap, and the fields of an encoded operation. -/

namespace Sys2Proof

/-- Two rows that agree on every bit both fix could select one word: no two do. -/
theorem opTable_rows_disjoint :
    opTable.Pairwise fun r r' => r.pat &&& r.mask &&& r'.mask ≠ r'.pat &&& r.mask &&& r'.mask := by
  decide

/-- A row fixes only bits its mask covers. -/
theorem opTable_patterns_masked : ∀ r ∈ opTable, r.pat &&& r.mask = r.pat := by
  decide

theorem encode_length (i : Instr) : (encode i).length = 1 := rfl

theorem idxField_toNat {i : Instr} (h : i.wf) : (idxField i).toNat = i.idx := by
  simp only [idxField, BitVec.toNat_ofNat]
  exact Nat.mod_eq_of_lt h

/-- The index field of an encoded operation is its index. -/
theorem idxOf_encodeByte {i : Instr} (h : i.wf) : idxOf (encodeByte i) = i.idx := by
  have : (encodeByte i).extractLsb' 0 3 = idxField i := by
    apply BitVec.eq_of_getLsbD_eq
    intro k hk
    have e : (encodeByte i).getLsbD k = _ :=
      BitVec.getLsbD_append (x := opField i) (y := 0#1 ++ idxField i) (i := k)
    rw [BitVec.getLsbD_append] at e
    simp [e, hk, show k < 4 by omega]
  rw [idxOf, this, idxField_toNat h]

end Sys2Proof
end

