-- ==== Sys2Proof/Laws/State.lean ====
section
/-! SUPPORT. What each operation that is one update of State does to each field. -/

namespace Sys2Proof.Machine

@[simp] theorem emit_cfg (es : List Event) (s : State) :
    (emit es s).cfg = s.cfg := rfl
@[simp] theorem emit_store (es : List Event) (s : State) :
    (emit es s).store = s.store := rfl
@[simp] theorem emit_pwr (es : List Event) (s : State) :
    (emit es s).pwr = s.pwr := rfl
@[simp] theorem emit_cs (es : List Event) (s : State) :
    (emit es s).cs = s.cs := rfl
@[simp] theorem emit_pass (es : List Event) (s : State) :
    (emit es s).pass = s.pass := rfl
@[simp] theorem emit_cmds (es : List Event) (s : State) :
    (emit es s).cmds = s.cmds := rfl
@[simp] theorem emit_replies (es : List Event) (s : State) :
    (emit es s).replies = s.replies := rfl
@[simp] theorem emit_xcount (es : List Event) (s : State) :
    (emit es s).xcount = s.xcount := rfl
@[simp] theorem emit_trace (es : List Event) (s : State) :
    (emit es s).trace = s.trace ++ es := rfl

@[simp] theorem returnValue_cfg (v : Res) (s : State) :
    (returnValue v s).cfg = s.cfg := rfl
@[simp] theorem returnValue_store (v : Res) (s : State) :
    (returnValue v s).store = s.store := rfl
@[simp] theorem returnValue_pwr (v : Res) (s : State) :
    (returnValue v s).pwr = s.pwr := rfl
@[simp] theorem returnValue_cs (v : Res) (s : State) :
    (returnValue v s).cs = s.cs := rfl
@[simp] theorem returnValue_pass (v : Res) (s : State) :
    (returnValue v s).pass = s.pass := rfl
@[simp] theorem returnValue_cmds (v : Res) (s : State) :
    (returnValue v s).cmds = s.cmds := rfl
@[simp] theorem returnValue_replies (v : Res) (s : State) :
    (returnValue v s).replies = s.replies := rfl
@[simp] theorem returnValue_xcount (v : Res) (s : State) :
    (returnValue v s).xcount = s.xcount := rfl
@[simp] theorem returnValue_trace (v : Res) (s : State) :
    (returnValue v s).trace = s.trace ++ [.ret v] := rfl

@[simp] theorem pwrDir_cfg (m : PinMode) (s : State) :
    (pwrDir m s).cfg = s.cfg := rfl
@[simp] theorem pwrDir_store (m : PinMode) (s : State) :
    (pwrDir m s).store = s.store := rfl
@[simp] theorem pwrDir_pwr (m : PinMode) (s : State) :
    (pwrDir m s).pwr = { s.pwr with dir := .wrote m } := rfl
@[simp] theorem pwrDir_cs (m : PinMode) (s : State) :
    (pwrDir m s).cs = s.cs := rfl
@[simp] theorem pwrDir_pass (m : PinMode) (s : State) :
    (pwrDir m s).pass = s.pass := rfl
@[simp] theorem pwrDir_cmds (m : PinMode) (s : State) :
    (pwrDir m s).cmds = s.cmds := rfl
@[simp] theorem pwrDir_replies (m : PinMode) (s : State) :
    (pwrDir m s).replies = s.replies := rfl
@[simp] theorem pwrDir_xcount (m : PinMode) (s : State) :
    (pwrDir m s).xcount = s.xcount := rfl
@[simp] theorem pwrDir_trace (m : PinMode) (s : State) :
    (pwrDir m s).trace = s.trace ++ [.pinDir s.cfg.pwrPin m] := rfl

@[simp] theorem pwrLevel_cfg (l : Level) (s : State) :
    (pwrLevel l s).cfg = s.cfg := rfl
@[simp] theorem pwrLevel_store (l : Level) (s : State) :
    (pwrLevel l s).store = s.store := rfl
@[simp] theorem pwrLevel_pwr (l : Level) (s : State) :
    (pwrLevel l s).pwr = { s.pwr with lvl := .wrote l } := rfl
@[simp] theorem pwrLevel_cs (l : Level) (s : State) :
    (pwrLevel l s).cs = s.cs := rfl
@[simp] theorem pwrLevel_pass (l : Level) (s : State) :
    (pwrLevel l s).pass = s.pass := rfl
@[simp] theorem pwrLevel_cmds (l : Level) (s : State) :
    (pwrLevel l s).cmds = s.cmds := rfl
@[simp] theorem pwrLevel_replies (l : Level) (s : State) :
    (pwrLevel l s).replies = s.replies := rfl
@[simp] theorem pwrLevel_xcount (l : Level) (s : State) :
    (pwrLevel l s).xcount = s.xcount := rfl
@[simp] theorem pwrLevel_trace (l : Level) (s : State) :
    (pwrLevel l s).trace = s.trace ++ [.pinLevel s.cfg.pwrPin l] := rfl

@[simp] theorem allCsDir_cfg (m : PinMode) (s : State) :
    (allCsDir m s).cfg = s.cfg := rfl
@[simp] theorem allCsDir_store (m : PinMode) (s : State) :
    (allCsDir m s).store = s.store := rfl
@[simp] theorem allCsDir_pwr (m : PinMode) (s : State) :
    (allCsDir m s).pwr = s.pwr := rfl
@[simp] theorem allCsDir_cs (m : PinMode) (s : State) :
    (allCsDir m s).cs = s.cs.map fun c => { c with dir := .wrote m } := rfl
@[simp] theorem allCsDir_pass (m : PinMode) (s : State) :
    (allCsDir m s).pass = s.pass := rfl
@[simp] theorem allCsDir_cmds (m : PinMode) (s : State) :
    (allCsDir m s).cmds = s.cmds := rfl
@[simp] theorem allCsDir_replies (m : PinMode) (s : State) :
    (allCsDir m s).replies = s.replies := rfl
@[simp] theorem allCsDir_xcount (m : PinMode) (s : State) :
    (allCsDir m s).xcount = s.xcount := rfl
@[simp] theorem allCsDir_trace (m : PinMode) (s : State) :
    (allCsDir m s).trace = s.trace ++ s.cfg.csPins.map fun p => .pinDir p m := rfl

@[simp] theorem allCsLevel_cfg (l : Level) (s : State) :
    (allCsLevel l s).cfg = s.cfg := rfl
@[simp] theorem allCsLevel_store (l : Level) (s : State) :
    (allCsLevel l s).store = s.store := rfl
@[simp] theorem allCsLevel_pwr (l : Level) (s : State) :
    (allCsLevel l s).pwr = s.pwr := rfl
@[simp] theorem allCsLevel_cs (l : Level) (s : State) :
    (allCsLevel l s).cs = s.cs.map fun c => { c with lvl := .wrote l } := rfl
@[simp] theorem allCsLevel_pass (l : Level) (s : State) :
    (allCsLevel l s).pass = s.pass := rfl
@[simp] theorem allCsLevel_cmds (l : Level) (s : State) :
    (allCsLevel l s).cmds = s.cmds := rfl
@[simp] theorem allCsLevel_replies (l : Level) (s : State) :
    (allCsLevel l s).replies = s.replies := rfl
@[simp] theorem allCsLevel_xcount (l : Level) (s : State) :
    (allCsLevel l s).xcount = s.xcount := rfl
@[simp] theorem allCsLevel_trace (l : Level) (s : State) :
    (allCsLevel l s).trace = s.trace ++ s.cfg.csPins.map fun p => .pinLevel p l := rfl

@[simp] theorem csLevel_cfg (i : Nat) (l : Level) (s : State) :
    (csLevel i l s).cfg = s.cfg := rfl
@[simp] theorem csLevel_store (i : Nat) (l : Level) (s : State) :
    (csLevel i l s).store = s.store := rfl
@[simp] theorem csLevel_pwr (i : Nat) (l : Level) (s : State) :
    (csLevel i l s).pwr = s.pwr := rfl
@[simp] theorem csLevel_cs (i : Nat) (l : Level) (s : State) :
    (csLevel i l s).cs = s.cs.modify i fun c => { c with lvl := .wrote l } := rfl
@[simp] theorem csLevel_pass (i : Nat) (l : Level) (s : State) :
    (csLevel i l s).pass = s.pass := rfl
@[simp] theorem csLevel_cmds (i : Nat) (l : Level) (s : State) :
    (csLevel i l s).cmds = s.cmds := rfl
@[simp] theorem csLevel_replies (i : Nat) (l : Level) (s : State) :
    (csLevel i l s).replies = s.replies := rfl
@[simp] theorem csLevel_xcount (i : Nat) (l : Level) (s : State) :
    (csLevel i l s).xcount = s.xcount := rfl
@[simp] theorem csLevel_trace (i : Nat) (l : Level) (s : State) :
    (csLevel i l s).trace = s.trace ++ [.pinLevel (csPin s.cfg i) l] := rfl

@[simp] theorem clearStore_cfg (s : State) :
    (clearStore s).cfg = s.cfg := rfl
@[simp] theorem clearStore_store (s : State) :
    (clearStore s).store = s.store.map fun _ => Slot.zero := rfl
@[simp] theorem clearStore_pwr (s : State) :
    (clearStore s).pwr = s.pwr := rfl
@[simp] theorem clearStore_cs (s : State) :
    (clearStore s).cs = s.cs := rfl
@[simp] theorem clearStore_pass (s : State) :
    (clearStore s).pass = s.pass := rfl
@[simp] theorem clearStore_cmds (s : State) :
    (clearStore s).cmds = s.cmds := rfl
@[simp] theorem clearStore_replies (s : State) :
    (clearStore s).replies = s.replies := rfl
@[simp] theorem clearStore_xcount (s : State) :
    (clearStore s).xcount = s.xcount := rfl
@[simp] theorem clearStore_trace (s : State) :
    (clearStore s).trace = s.trace := rfl

@[simp] theorem holdPass_cfg (p : Pass) (s : State) :
    (holdPass p s).cfg = s.cfg := rfl
@[simp] theorem holdPass_store (p : Pass) (s : State) :
    (holdPass p s).store = s.store := rfl
@[simp] theorem holdPass_pwr (p : Pass) (s : State) :
    (holdPass p s).pwr = s.pwr := rfl
@[simp] theorem holdPass_cs (p : Pass) (s : State) :
    (holdPass p s).cs = s.cs := rfl
@[simp] theorem holdPass_pass (p : Pass) (s : State) :
    (holdPass p s).pass = some p := rfl
@[simp] theorem holdPass_cmds (p : Pass) (s : State) :
    (holdPass p s).cmds = s.cmds := rfl
@[simp] theorem holdPass_replies (p : Pass) (s : State) :
    (holdPass p s).replies = s.replies := rfl
@[simp] theorem holdPass_xcount (p : Pass) (s : State) :
    (holdPass p s).xcount = s.xcount := rfl
@[simp] theorem holdPass_trace (p : Pass) (s : State) :
    (holdPass p s).trace = s.trace := rfl

@[simp] theorem decodeChannel_cfg (p : Pass) (s : State) :
    (decodeChannel p s).cfg = s.cfg := rfl
@[simp] theorem decodeChannel_store (p : Pass) (s : State) :
    (decodeChannel p s).store = s.store.modify (p.ch - 1) (decodeSlot p.w) := rfl
@[simp] theorem decodeChannel_pwr (p : Pass) (s : State) :
    (decodeChannel p s).pwr = s.pwr := rfl
@[simp] theorem decodeChannel_cs (p : Pass) (s : State) :
    (decodeChannel p s).cs = s.cs := rfl
@[simp] theorem decodeChannel_pass (p : Pass) (s : State) :
    (decodeChannel p s).pass = s.pass := rfl
@[simp] theorem decodeChannel_cmds (p : Pass) (s : State) :
    (decodeChannel p s).cmds = s.cmds := rfl
@[simp] theorem decodeChannel_replies (p : Pass) (s : State) :
    (decodeChannel p s).replies = s.replies := rfl
@[simp] theorem decodeChannel_xcount (p : Pass) (s : State) :
    (decodeChannel p s).xcount = s.xcount := rfl
@[simp] theorem decodeChannel_trace (p : Pass) (s : State) :
    (decodeChannel p s).trace = s.trace ++ decodeEvents s.cfg p.w := rfl

@[simp] theorem endPass_cfg (p : Pass) (s : State) :
    (endPass p s).cfg = s.cfg := rfl
@[simp] theorem endPass_store (p : Pass) (s : State) :
    (endPass p s).store = s.store := rfl
@[simp] theorem endPass_pwr (p : Pass) (s : State) :
    (endPass p s).pwr = s.pwr := rfl
@[simp] theorem endPass_cs (p : Pass) (s : State) :
    (endPass p s).cs = s.cs := rfl
@[simp] theorem endPass_pass (p : Pass) (s : State) :
    (endPass p s).pass = none := rfl
@[simp] theorem endPass_cmds (p : Pass) (s : State) :
    (endPass p s).cmds = s.cmds := rfl
@[simp] theorem endPass_replies (p : Pass) (s : State) :
    (endPass p s).replies = s.replies := rfl
@[simp] theorem endPass_xcount (p : Pass) (s : State) :
    (endPass p s).xcount = s.xcount := rfl
@[simp] theorem endPass_trace (p : Pass) (s : State) :
    (endPass p s).trace = s.trace ++ [.ret (BitVec.ofNat 16 (goodCount s.store))] := rfl

@[simp] theorem putCommand_cfg (c : Byte) (s : State) :
    (putCommand c s).cfg = s.cfg := rfl
@[simp] theorem putCommand_store (c : Byte) (s : State) :
    (putCommand c s).store = s.store := rfl
@[simp] theorem putCommand_pwr (c : Byte) (s : State) :
    (putCommand c s).pwr = s.pwr := rfl
@[simp] theorem putCommand_cs (c : Byte) (s : State) :
    (putCommand c s).cs = s.cs := rfl
@[simp] theorem putCommand_pass (c : Byte) (s : State) :
    (putCommand c s).pass = none := rfl
@[simp] theorem putCommand_cmds (c : Byte) (s : State) :
    (putCommand c s).cmds = c :: s.cmds := rfl
@[simp] theorem putCommand_replies (c : Byte) (s : State) :
    (putCommand c s).replies = s.replies := rfl
@[simp] theorem putCommand_xcount (c : Byte) (s : State) :
    (putCommand c s).xcount = s.xcount := rfl
@[simp] theorem putCommand_trace (c : Byte) (s : State) :
    (putCommand c s).trace = s.trace := rfl

@[simp] theorem access_cfg (idx : Nat) (v : Res) (f : Slot → Res) (s : State) :
    (access idx v f s).cfg = s.cfg := rfl
@[simp] theorem access_store (idx : Nat) (v : Res) (f : Slot → Res) (s : State) :
    (access idx v f s).store = s.store := rfl
@[simp] theorem access_pwr (idx : Nat) (v : Res) (f : Slot → Res) (s : State) :
    (access idx v f s).pwr = s.pwr := rfl
@[simp] theorem access_cs (idx : Nat) (v : Res) (f : Slot → Res) (s : State) :
    (access idx v f s).cs = s.cs := rfl
@[simp] theorem access_pass (idx : Nat) (v : Res) (f : Slot → Res) (s : State) :
    (access idx v f s).pass = s.pass := rfl
@[simp] theorem access_cmds (idx : Nat) (v : Res) (f : Slot → Res) (s : State) :
    (access idx v f s).cmds = s.cmds := rfl
@[simp] theorem access_replies (idx : Nat) (v : Res) (f : Slot → Res) (s : State) :
    (access idx v f s).replies = s.replies := rfl
@[simp] theorem access_xcount (idx : Nat) (v : Res) (f : Slot → Res) (s : State) :
    (access idx v f s).xcount = s.xcount := rfl

@[simp] theorem busy_eq_false_iff (s : State) : s.busy = false ↔ s.pass = none := by
  simp [State.busy]

theorem busy_eq_true_iff (s : State) : s.busy = true ↔ ∃ p, s.pass = some p := by
  simp [State.busy, Option.isSome_iff_exists]

end Sys2Proof.Machine
end

