-- ==== Sys2Proof/Laws/Ops.lean ====
section
/-! SUPPORT. One lemma per shared operation: everything it can do. -/

namespace Sys2Proof.Machine

/-- An accepted operation runs its body. -/
theorem issue_of_ready {s : State} (body : State → State)
    (hc : configOk s.cfg = true) (hb : s.busy = false) : issue s body = .next (body s) := by
  simp [issue, hc, hb]

/-- An operation that answers a next state was accepted, and the state is its body's. -/
theorem issue_eq_next {s t : State} {body : State → State} (h : issue s body = .next t) :
    configOk s.cfg = true ∧ s.busy = false ∧ t = body s := by
  unfold issue at h
  split at h
  · split at h
    · cases h
    · next hc hb =>
      cases h
      exact ⟨hc, by simpa using hb, rfl⟩
  · cases h

theorem issue_of_busy {s : State} (body : State → State)
    (hc : configOk s.cfg = true) (hb : s.busy = true) :
    issue s body = .refused .hostMoveWhileBusy := by
  simp [issue, hc, hb]

theorem issue_of_bad_config {s : State} (body : State → State)
    (hc : configOk s.cfg = false) : issue s body = .refused .notAConfiguration := by
  simp [issue, hc]

theorem configOk_iff (c : Config) :
    configOk c = true ↔ 1 ≤ c.n ∧ c.n ≤ 4 ∧ (c.pwrPin :: c.csPins).Nodup := by
  simp [configOk]

/-- What an accepted operation does to the state, as one function. -/
def bodyOf (i : Instr) : State → State :=
  match i with
  | .init => fun s =>
      clearStore (pwrLevel .low (allCsLevel .high (allCsDir .output (pwrDir .output s))))
  | .pwrOn => fun s => pwrLevel .high (allCsLevel .high s)
  | .pwrOff => fun s => allCsLevel .high (pwrLevel .low s)
  | .teardown => fun s => allCsDir .input (pwrLevel .low s)
  | .retrieve => retrievePass
  | .getTcC idx => fun s => access idx 0#16 (fun c => degrees (cQuarter s.cfg.divRound c.tc.toInt)) s
  | .getTcF idx => fun s => access idx 0#16 (fun c => degrees (fQuarter s.cfg.divRound c.tc.toInt)) s
  | .getAmbC idx => fun s => access idx 0#16 (fun c => degrees (cSixteenth s.cfg.divRound c.amb.toInt)) s
  | .getAmbF idx => fun s => access idx 0#16 (fun c => degrees (fSixteenth s.cfg.divRound c.amb.toInt)) s
  | .getFault idx => fun s => access idx (faultCode .busError) (fun c => faultCode c.flt) s

/-- Every operation is `issue` of its body. -/
theorem exec_eq_issue (i : Instr) (s : State) : exec i s = issue s (bodyOf i) := by
  cases i <;> rfl

/-- What a next state of `exec` tells: the operation was accepted, and which state it is. -/
theorem exec_eq_next {i : Instr} {s t : State} (h : exec i s = .next t) :
    configOk s.cfg = true ∧ s.busy = false ∧ t = bodyOf i s :=
  issue_eq_next (exec_eq_issue i s ▸ h)

theorem exec_of_ready (i : Instr) {s : State} (hc : configOk s.cfg = true) (hb : s.busy = false) :
    exec i s = .next (bodyOf i s) :=
  (exec_eq_issue i s).trans (issue_of_ready _ hc hb)

theorem access_of_valid {idx : Nat} {s : State} (v : Res) (f : Slot → Res)
    (h1 : 1 ≤ idx) (h2 : idx ≤ s.cfg.n) :
    access idx v f s = emit [.ret (f (slotAt (idx - 1) s))] s := by
  simp [access, indexValid, h1, h2]

theorem access_of_invalid {idx : Nat} {s : State} (v : Res) (f : Slot → Res)
    (h : idx = 0 ∨ s.cfg.n < idx) :
    access idx v f s = emit (diagEvents s.cfg .invalidIndexKind ++ [.ret v]) s := by
  have : indexValid s.cfg idx = false := by simp [indexValid]; omega
  simp [access, this]

/-- The accessors write the trace only. -/
theorem access_eq_emit (idx : Nat) (v : Res) (f : Slot → Res) (s : State) :
    ∃ es, access idx v f s = emit es s := ⟨_, rfl⟩

@[simp] theorem lastResult_emit_ret (es : List Event) (v : Res) (s : State) :
    lastResult (emit (es ++ [.ret v]) s) = some v := by
  simp [lastResult, emit, ← List.append_assoc]

@[simp] theorem Sync.andThen_done {α β : Type} (a : α) (s : State) (f : α → State → Sync β) :
    (Sync.done a s).andThen f = f a s := rfl

@[simp] theorem Sync.andThen_blocked {α β : Type} (s : State) (f : α → State → Sync β) :
    (Sync.blocked s : Sync α).andThen f = .blocked s := rfl

/-- The state a part of a pass leaves, done or blocked. -/
def Sync.state {α : Type} : Sync α → State
  | .done _ s => s
  | .blocked s => s

/-- What two parts of a pass keep, one after the other keeps. -/
theorem Sync.andThen_keeps {α β : Type} {P : State → Prop} {r : Sync α} {f : α → State → Sync β}
    (hr : P r.state) (hf : ∀ a s, P s → P (f a s).state) : P (r.andThen f).state := by
  cases r with
  | done a s => exact hf a s hr
  | blocked s => exact hr

theorem exchange_of_byte {s : State} {b : Byte} (h : replyAt s 0 = .byte b) :
    exchange s = .done b
      { s with
        replies := s.replies.drop 1
        xcount := s.xcount + 1
        trace := s.trace ++ [.exchange (Config.dummyByte s.xcount) b] } := by
  simp [exchange, h]

theorem exchange_of_never {s : State} (h : replyAt s 0 = .never) : exchange s = .blocked s := by
  simp [exchange, h]

/-- The coming answers after `k` of them are taken. -/
theorem replyAt_drop {s t : State} {k : Nat} (hr : t.replies = s.replies.drop k)
    (hx : t.xcount = s.xcount + k) (j : Nat) : replyAt t j = replyAt s (k + j) := by
  simp [replyAt, hr, hx, List.getD_eq_getElem?_getD, Nat.add_assoc]

theorem decodeSlot_of_busError {w : Word} (h : isBusError w = true) (c : Slot) :
    decodeSlot w c = { c with flt := .busError } := by
  simp [decodeSlot, h]

theorem decodeSlot_of_valid {w : Word} (h : isBusError w = false) (c : Slot) :
    decodeSlot w c = { tc := tcRaw w, amb := ambRaw w, flt := faultClass w } := by
  simp [decodeSlot, h]

theorem isBusError_iff (w : Word) :
    isBusError w = true ↔ w = 0x00000000#32 ∨ w = 0xFFFFFFFF#32 := by
  simp [isBusError]

end Sys2Proof.Machine
end

