-- ==== Sys2Proof/Laws/PerInstr.lean ====
section
/-! SUPPORT. The family OneByte, one lemma per operation: an operation is spelled by one byte whose `OP` is the
operation's and whose bit `Z` is 0 (spec/30_encoding.md R56, R61). -/

namespace Sys2Proof.Laws.OneByte

/-- One command byte, `OP` in bits 7:4, `Z = 0` in bit 3 (spec/30_encoding.md R56, R61). -/
def Statement (i : Instr) : Prop :=
  i.wf → ∃ c : Byte, encode i = [c] ∧ opOf c = opField i ∧ c.getLsbD 3 = false

theorem init : Statement .init := fun _ => ⟨_, rfl, by decide, by decide⟩

theorem pwrOn : Statement .pwrOn := fun _ => ⟨_, rfl, by decide, by decide⟩

theorem pwrOff : Statement .pwrOff := fun _ => ⟨_, rfl, by decide, by decide⟩

theorem teardown : Statement .teardown := fun _ => ⟨_, rfl, by decide, by decide⟩

theorem retrieve : Statement .retrieve := fun _ => ⟨_, rfl, by decide, by decide⟩

theorem getTcC (idx : Nat) : Statement (.getTcC idx) := fun h =>
  ⟨_, rfl, by revert idx; simp only [Instr.wf, Instr.idx]; decide,
    by revert idx; simp only [Instr.wf, Instr.idx]; decide⟩

theorem getTcF (idx : Nat) : Statement (.getTcF idx) := fun h =>
  ⟨_, rfl, by revert idx; simp only [Instr.wf, Instr.idx]; decide,
    by revert idx; simp only [Instr.wf, Instr.idx]; decide⟩

theorem getAmbC (idx : Nat) : Statement (.getAmbC idx) := fun h =>
  ⟨_, rfl, by revert idx; simp only [Instr.wf, Instr.idx]; decide,
    by revert idx; simp only [Instr.wf, Instr.idx]; decide⟩

theorem getAmbF (idx : Nat) : Statement (.getAmbF idx) := fun h =>
  ⟨_, rfl, by revert idx; simp only [Instr.wf, Instr.idx]; decide,
    by revert idx; simp only [Instr.wf, Instr.idx]; decide⟩

theorem getFault (idx : Nat) : Statement (.getFault idx) := fun h =>
  ⟨_, rfl, by revert idx; simp only [Instr.wf, Instr.idx]; decide,
    by revert idx; simp only [Instr.wf, Instr.idx]; decide⟩

end Sys2Proof.Laws.OneByte
end

