-- ==== Sys2Proof/Laws/Retrieve.lean ====
section
/-! SUPPORT. What EXCH4, one channel and a whole pass do, given what the environment answers. -/

namespace Sys2Proof.Machine

theorem Answers.head {b : Nat → Byte} {k : Nat} {s : State} (h : Answers b (k + 1) s) :
    replyAt s 0 = .byte (b 0) := h 0 (Nat.succ_pos k)

theorem Answers.drop {b : Nat → Byte} {m k : Nat} {s t : State} (h : Answers b (m + k) s)
    (hr : t.replies = s.replies.drop m) (hx : t.xcount = s.xcount + m) :
    Answers (fun j => b (m + j)) k t := fun j hj => by
  rw [replyAt_drop hr hx, h (m + j) (by omega)]

theorem replyAt_eq_of_fields {s t : State} (hr : t.replies = s.replies) (hx : t.xcount = s.xcount)
    (j : Nat) : replyAt t j = replyAt s j := by
  simp [replyAt, hr, hx]

theorem Answers.of_fields {b : Nat → Byte} {k : Nat} {s t : State} (h : Answers b k s)
    (hr : t.replies = s.replies) (hx : t.xcount = s.xcount) : Answers b k t := fun j hj => by
  rw [replyAt_eq_of_fields hr hx, h j hj]

/-- The level of one line written twice is the second. -/
theorem modify_lvl_twice (cs : List Line) (i : Nat) (l l' : Level) :
    ((cs.modify i fun c => { c with lvl := .wrote l }).modify i fun c => { c with lvl := .wrote l' })
      = cs.modify i fun c => { c with lvl := .wrote l' } := by
  rw [List.modify_modify_eq]; rfl

/-- The level of each line after that of line `k` is written. -/
theorem getD_modify_lvl {cs : List Line} {k : Nat} (hk : k < cs.length) (i : Nat) (l : Level) :
    ((cs.modify k fun c => { c with lvl := .wrote l }).getD i Line.unwritten).lvl
      = if i = k then .wrote l else (cs.getD i Line.unwritten).lvl := by
  simp only [List.getD_eq_getElem?_getD, List.getElem?_modify]
  by_cases h : i = k
  · subst h; simp [hk]
  · simp [h, Ne.symm h]

/-- A frame cut short after `m` exchanges: the level LOW, then those exchanges. -/
theorem frameEvents_take (c : Config) (i x : Nat) (b : Nat → Byte) {m : Nat} (h : m < 4) :
    (frameEvents c i x b).take (m + 1) = [.pinLevel (csPin c i) .low] ++
      (List.range m).map fun j => .exchange (Config.dummyByte (x + j)) (b j) := by
  obtain rfl | rfl | rfl | rfl : m = 0 ∨ m = 1 ∨ m = 2 ∨ m = 3 := by omega
  all_goals rfl

/-- EXCH4 when its four exchanges are answered. -/
theorem exch4_of_answers {b : Nat → Byte} {p : Pass} {s : State} (h : Answers b 4 s) :
    exch4 p s = .done { p with w := wordOf b 0 }
      { s with
        cs := s.cs.modify (p.ch - 1) fun c => { c with lvl := .wrote .high }
        pass := some { p with w := wordOf b 0 }
        replies := s.replies.drop 4
        xcount := s.xcount + 4
        trace := s.trace ++ frameEvents s.cfg (p.ch - 1) s.xcount b } := by
  have h0 := h 0 (by omega)
  have h1 := h 1 (by omega)
  have h2 := h 2 (by omega)
  have h3 := h 3 (by omega)
  unfold exch4
  rw [exchange_of_byte (b := b 0) (by rw [← h0]; exact replyAt_eq_of_fields rfl rfl 0)]
  rw [Sync.andThen_done]
  rw [exchange_of_byte (b := b 1) (by rw [← h1]; exact replyAt_drop rfl rfl 0)]
  rw [Sync.andThen_done]
  rw [exchange_of_byte (b := b 2) (by
    rw [← h2]; exact replyAt_drop (s := s) (k := 2) (by simp) rfl 0)]
  rw [Sync.andThen_done]
  rw [exchange_of_byte (b := b 3) (by
    rw [← h3]; exact replyAt_drop (s := s) (k := 3) (by simp) rfl 0)]
  simp [csLevel, holdPass, emit, frameEvents, wordOf, modify_lvl_twice]

/-- EXCH4 when its `k`-th exchange never returns. -/
theorem exch4_of_never {b : Nat → Byte} {k : Nat} {p : Pass} {s : State} (hk : k < 4)
    (h : Answers b k s) (hn : replyAt s k = .never) :
    exch4 p s = .blocked
      { s with
        cs := s.cs.modify (p.ch - 1) fun c => { c with lvl := .wrote .low }
        pass := some p
        replies := s.replies.drop k
        xcount := s.xcount + k
        trace := s.trace ++ (frameEvents s.cfg (p.ch - 1) s.xcount b).take (k + 1) } := by
  unfold exch4
  match k, hk with
  | 0, _ =>
    rw [exchange_of_never (by rw [← hn]; exact replyAt_eq_of_fields rfl rfl 0)]
    simp [csLevel, holdPass, emit, frameEvents]
  | 1, _ =>
    rw [exchange_of_byte (b := b 0) (by
      rw [← h 0 (by omega)]; exact replyAt_eq_of_fields rfl rfl 0), Sync.andThen_done]
    rw [exchange_of_never (by rw [← hn]; exact replyAt_drop rfl rfl 0)]
    simp [csLevel, holdPass, emit, frameEvents]
  | 2, _ =>
    rw [exchange_of_byte (b := b 0) (by
      rw [← h 0 (by omega)]; exact replyAt_eq_of_fields rfl rfl 0), Sync.andThen_done]
    rw [exchange_of_byte (b := b 1) (by
      rw [← h 1 (by omega)]; exact replyAt_drop rfl rfl 0), Sync.andThen_done]
    rw [exchange_of_never (by
      rw [← hn]; exact replyAt_drop (s := s) (k := 2) (by simp) rfl 0)]
    simp [csLevel, holdPass, emit, frameEvents]
  | 3, _ =>
    rw [exchange_of_byte (b := b 0) (by
      rw [← h 0 (by omega)]; exact replyAt_eq_of_fields rfl rfl 0), Sync.andThen_done]
    rw [exchange_of_byte (b := b 1) (by
      rw [← h 1 (by omega)]; exact replyAt_drop rfl rfl 0), Sync.andThen_done]
    rw [exchange_of_byte (b := b 2) (by
      rw [← h 2 (by omega)]; exact replyAt_drop (s := s) (k := 2) (by simp) rfl 0), Sync.andThen_done]
    rw [exchange_of_never (by
      rw [← hn]; exact replyAt_drop (s := s) (k := 3) (by simp) rfl 0)]
    simp [csLevel, holdPass, emit, frameEvents]

/-- The state after one channel whose four exchanges are answered. -/
def channelDone (b : Nat → Byte) (p : Pass) (s : State) : State :=
  { s with
    store := s.store.modify (p.ch - 1) (decodeSlot (wordOf b 0))
    cs := s.cs.modify (p.ch - 1) fun c => { c with lvl := .wrote .high }
    pass := some { p with w := wordOf b 0 }
    replies := s.replies.drop 4
    xcount := s.xcount + 4
    trace := s.trace ++ frameEvents s.cfg (p.ch - 1) s.xcount b ++ decodeEvents s.cfg (wordOf b 0) }

theorem passChannel_of_answers {b : Nat → Byte} {p : Pass} {s : State} (h : Answers b 4 s) :
    passChannel p s = .done { p with w := wordOf b 0 } (channelDone b p s) := by
  simp [passChannel, exch4_of_answers h, channelDone, decodeChannel, emit]

theorem passChannel_of_never {b : Nat → Byte} {k : Nat} {p : Pass} {s : State} (hk : k < 4)
    (h : Answers b k s) (hn : replyAt s k = .never) :
    passChannel p s = .blocked
      { s with
        cs := s.cs.modify (p.ch - 1) fun c => { c with lvl := .wrote .low }
        pass := some p
        replies := s.replies.drop k
        xcount := s.xcount + k
        trace := s.trace ++ (frameEvents s.cfg (p.ch - 1) s.xcount b).take (k + 1) } := by
  simp [passChannel, exch4_of_never hk h hn]

/-- The state after `m` channels from slot `k` on whose exchanges are all answered. -/
def channelsDone (b : Nat → Byte) (k m : Nat) (q : Option Pass) (s : State) : State :=
  { s with
    store := s.store.mapIdx fun i c =>
      if k ≤ i ∧ i < k + m then decodeSlot (wordOf b (i - k)) c else c
    cs := s.cs.mapIdx fun i c =>
      if k ≤ i ∧ i < k + m then { c with lvl := .wrote .high } else c
    pass := q
    replies := s.replies.drop (4 * m)
    xcount := s.xcount + 4 * m
    trace := s.trace ++ passEvents s.cfg b s.xcount k m }

/-- The frames after the first. -/
theorem wordOf_succ (b : Nat → Byte) (i : Nat) :
    wordOf b (i + 1) = wordOf (fun j => b (4 + j)) i := by
  have e : ∀ j, 4 * (i + 1) + j = 4 + (4 * i + j) := by intro j; omega
  have e0 := e 0
  simp only [Nat.add_zero] at e0
  simp only [wordOf]
  rw [e 1, e 2, e 3, e0]

theorem passEvents_succ (c : Config) (b : Nat → Byte) (x k m : Nat) :
    passEvents c b x k (m + 1) =
      frameEvents c k x b ++ decodeEvents c (wordOf b 0) ++
        passEvents c (fun j => b (4 + j)) (x + 4) (k + 1) m := by
  simp only [passEvents, List.range_succ_eq_map, List.flatMap_cons, List.flatMap_map]
  congr 1
  apply congrArg (fun f => List.flatMap f (List.range m))
  funext i
  have e1 : k + (i + 1) = k + 1 + i := by omega
  have e2 : x + 4 * (i + 1) = x + 4 + 4 * i := by omega
  have e3 : ∀ j, 4 * (i + 1) + j = 4 + (4 * i + j) := by intro j; omega
  simp only [e1, e2, e3, wordOf_succ]

theorem mapIdx_modify_step {α : Type} (l : List α) (k m : Nat) (g : Nat → α → α) (g' : Nat → α → α)
    (h : ∀ i, g (i + 1) = g' i) :
    (l.modify k (g 0)).mapIdx (fun i c => if k + 1 ≤ i ∧ i < k + 1 + m then g' (i - (k + 1)) c else c)
      = l.mapIdx (fun i c => if k ≤ i ∧ i < k + (m + 1) then g (i - k) c else c) := by
  apply List.ext_getElem
  · simp
  · intro i h1 h2
    simp only [List.getElem_mapIdx, List.getElem_modify]
    by_cases hik : k = i
    · subst hik; simp
    · simp only [hik, if_false]
      by_cases hlt : k + 1 ≤ i ∧ i < k + 1 + m
      · have : k ≤ i ∧ i < k + (m + 1) := by omega
        rw [if_pos hlt, if_pos this]
        have : i - k = (i - (k + 1)) + 1 := by omega
        rw [this, h]
      · have : ¬ (k ≤ i ∧ i < k + (m + 1)) := by omega
        rw [if_neg hlt, if_neg this]

theorem channelsDone_step (b : Nat → Byte) (k m : Nat) (p : Pass) (q : Option Pass) (s : State)
    (hp : p.ch = k + 1) :
    channelsDone (fun j => b (4 + j)) (k + 1) m q (channelDone b p s) = channelsDone b k (m + 1) q s := by
  simp only [channelsDone, channelDone, hp, Nat.add_sub_cancel, State.mk.injEq, true_and,
    List.drop_drop]
  refine ⟨?_, ?_, ?_, ?_, ?_⟩
  · exact mapIdx_modify_step s.store k m (fun i => decodeSlot (wordOf b i))
      (fun i => decodeSlot (wordOf (fun j => b (4 + j)) i)) (fun i => by simp only [wordOf_succ])
  · exact mapIdx_modify_step s.cs k m (fun _ c => { c with lvl := .wrote .high }) _ (fun i => rfl)
  · congr 1; omega
  · omega
  · rw [passEvents_succ]; simp

/-- The transient registers after `m` channels from slot `k` on. -/
def passAfter (b : Nat → Byte) (k m : Nat) (p : Pass) : Pass :=
  if m = 0 then p else { ch := k + m, w := wordOf b (m - 1), good := p.good }

/-- A run of `m` channels from slot `k` on, all of whose exchanges are answered. -/
theorem passLoop_of_answers {b : Nat → Byte} {m k : Nat} {p : Pass} {s : State}
    (h : Answers b (4 * m) s) :
    passLoop (List.range' (k + 1) m) p s = .done (passAfter b k m p)
      (channelsDone b k m (if m = 0 then s.pass else some (passAfter b k m p)) s) := by
  induction m generalizing b k p s with
  | zero =>
    have h1 : ∀ {α : Type} (l : List α) (f : Nat → α → α),
        l.mapIdx (fun i c => if k ≤ i ∧ i < k then f i c else c) = l := by
      intro α l f
      apply List.ext_getElem
      · simp
      · intro i h1 h2
        rw [List.getElem_mapIdx, if_neg (by omega)]
    simp only [List.range'_zero, passLoop, channelsDone, passEvents, List.range_zero, passAfter,
      List.flatMap_nil, List.append_nil, Nat.mul_zero, List.drop_zero, Nat.add_zero, if_true]
    congr 1
    rw [h1 s.store (fun i => decodeSlot (wordOf b (i - k))),
      h1 s.cs (fun _ c => { c with lvl := .wrote .high })]
  | succ m ih =>
    have h4 : Answers b 4 s := fun j hj => h j (by omega)
    have hrest : Answers (fun j => b (4 + j)) (4 * m) (channelDone b { p with ch := k + 1 } s) :=
      Answers.drop (m := 4) (s := s) (fun j hj => h j (by omega)) rfl rfl
    have hp : passAfter (fun j => b (4 + j)) (k + 1) m { p with ch := k + 1, w := wordOf b 0 }
        = passAfter b k (m + 1) p := by
      cases m with
      | zero => simp [passAfter]
      | succ m =>
        simp only [passAfter, Nat.add_sub_cancel, Nat.succ_ne_zero, if_false, Pass.mk.injEq, and_true]
        exact ⟨by omega, (wordOf_succ b m).symm⟩
    simp only [List.range'_succ, passLoop, passChannel_of_answers h4, Sync.andThen_done]
    rw [ih hrest, channelsDone_step b k m _ _ s rfl, hp]
    congr 2
    by_cases hm : m = 0
    · simp [hm, channelDone, passAfter]
    · simp [hm]

/-- A list of channels, then another. -/
theorem passLoop_append (l l' : List Nat) (p : Pass) (s : State) :
    passLoop (l ++ l') p s = (passLoop l p s).andThen fun p s => passLoop l' p s := by
  induction l generalizing p s with
  | nil => rfl
  | cons ch rest ih =>
    simp only [List.cons_append, passLoop]
    cases passChannel { p with ch := ch } s with
    | done a s' => simp [ih]
    | blocked s' => simp

/-- What every channel of a pass keeps, the pass keeps. -/
theorem passLoop_keeps {P : State → Prop} (hstep : ∀ p s, P s → P (passChannel p s).state)
    (chs : List Nat) (p : Pass) (s : State) (h : P s) : P (passLoop chs p s).state := by
  induction chs generalizing p s with
  | nil => exact h
  | cons ch rest ih =>
    exact Sync.andThen_keeps (hstep _ _ h) fun a s' hs' => ih a s' hs'

/-- Either all `k` coming exchanges are answered, or there is a first one that never returns. -/
theorem answers_or_never (s : State) (k : Nat) :
    (∃ b, Answers b k s) ∨ ∃ b j, j < k ∧ Answers b j s ∧ replyAt s j = .never := by
  induction k with
  | zero => exact .inl ⟨fun _ => 0, fun j hj => absurd hj (Nat.not_lt_zero j)⟩
  | succ k ih =>
    obtain ⟨b, hb⟩ | ⟨b, j, hj, hb, hn⟩ := ih
    · cases hr : replyAt s k with
      | never => exact .inr ⟨b, k, by omega, hb, hr⟩
      | byte c =>
        refine .inl ⟨fun j => if j = k then c else b j, fun j hj => ?_⟩
        by_cases hjk : j = k
        · simp [hjk, hr]
        · simp [hjk, hb j (by omega)]
    · exact .inr ⟨b, j, by omega, hb, hn⟩

/-- The state of a run of channels from slot `k` on that blocks in its exchange number `j`. -/
def channelsBlocked (b : Nat → Byte) (k j : Nat) (q : Pass) (s : State) : State :=
  let d := channelsDone b k (j / 4) none s
  { d with
    cs := d.cs.modify (k + j / 4) fun c => { c with lvl := .wrote .low }
    pass := some q
    replies := s.replies.drop j
    xcount := s.xcount + j
    trace := d.trace ++
      (frameEvents s.cfg (k + j / 4) (s.xcount + 4 * (j / 4)) fun i => b (4 * (j / 4) + i)).take (j % 4 + 1) }

/-- A run of `m` channels from slot `k` on whose exchange number `j` never returns. -/
theorem passLoop_of_never {b : Nat → Byte} {m k j : Nat} {p : Pass} {s : State} (hj : j < 4 * m)
    (h : Answers b j s) (hn : replyAt s j = .never) :
    passLoop (List.range' (k + 1) m) p s = .blocked
      (channelsBlocked b k j { passAfter b k (j / 4) p with ch := k + j / 4 + 1 } s) := by
  have hsplit : List.range' (k + 1) m
      = List.range' (k + 1) (j / 4) ++ (k + j / 4 + 1) :: List.range' (k + j / 4 + 2) (m - j / 4 - 1) := by
    have : m = j / 4 + (m - j / 4 - 1 + 1) := by omega
    conv_lhs => rw [this, ← List.range'_append]
    rw [List.range'_succ]
    have e : k + 1 + 1 * (j / 4) = k + j / 4 + 1 := by omega
    rw [e]
  have hp := passLoop_of_answers (k := k) (p := p) (m := j / 4) (s := s) (b := b)
    (fun i hi => h i (by omega))
  generalize passAfter b k (j / 4) p = p' at hp ⊢
  have hd : Answers (fun i => b (4 * (j / 4) + i)) (j % 4)
      (channelsDone b k (j / 4) (if j / 4 = 0 then s.pass else some p') s) :=
    Answers.drop (m := 4 * (j / 4)) (s := s) (fun i hi => h i (by omega)) rfl rfl
  have hnd : replyAt (channelsDone b k (j / 4) (if j / 4 = 0 then s.pass else some p') s) (j % 4)
      = .never := by
    rw [replyAt_drop (s := s) (k := 4 * (j / 4)) rfl rfl, ← hn]
    congr 1
    omega
  rw [hsplit, passLoop_append, hp, Sync.andThen_done]
  simp only [passLoop]
  rw [passChannel_of_never (by omega) hd hnd, Sync.andThen_blocked]
  simp only [channelsBlocked, channelsDone, Nat.add_sub_cancel, Sync.blocked.injEq, State.mk.injEq,
    true_and, and_true, List.drop_drop]
  refine ⟨?_, ?_⟩
  · congr 1; omega
  · omega

/-- A pass all of whose exchanges are answered. -/
theorem retrievePass_of_answers {b : Nat → Byte} {s : State} (h : Answers b (4 * s.cfg.n) s) :
    retrievePass s = emit [.ret (BitVec.ofNat 16 (goodCount (channelsDone b 0 s.cfg.n none s).store))]
      (channelsDone b 0 s.cfg.n none s) := by
  have hp := passLoop_of_answers (k := 0) (p := startPass s) h
  simp only [Nat.zero_add] at hp
  simp only [retrievePass, hp]
  rfl

/-- A pass blocked in its exchange number `j`. -/
theorem retrievePass_of_never {b : Nat → Byte} {j : Nat} {s : State} (hj : j < 4 * s.cfg.n)
    (h : Answers b j s) (hn : replyAt s j = .never) :
    retrievePass s =
      channelsBlocked b 0 j { passAfter b 0 (j / 4) (startPass s) with ch := j / 4 + 1 } s := by
  have hp := passLoop_of_never (k := 0) (p := startPass s) hj h hn
  simp only [Nat.zero_add] at hp
  simp only [retrievePass, hp]

/-- The two ways a pass ends: every exchange answered, or blocked in the first that never returns. -/
theorem retrievePass_cases (s : State) :
    (∃ b, Answers b (4 * s.cfg.n) s ∧
      retrievePass s = emit [.ret (BitVec.ofNat 16 (goodCount (channelsDone b 0 s.cfg.n none s).store))]
        (channelsDone b 0 s.cfg.n none s)) ∨
    ∃ b j, j < 4 * s.cfg.n ∧ Answers b j s ∧ replyAt s j = .never ∧
      retrievePass s =
        channelsBlocked b 0 j { passAfter b 0 (j / 4) (startPass s) with ch := j / 4 + 1 } s := by
  obtain ⟨b, hb⟩ | ⟨b, j, hj, hb, hn⟩ := answers_or_never s (4 * s.cfg.n)
  · exact .inl ⟨b, hb, retrievePass_of_answers hb⟩
  · exact .inr ⟨b, j, hj, hb, hn, retrievePass_of_never hj hb hn⟩

/-- A range of slots that is all of them. -/
theorem mapIdx_range_all {α : Type} (l : List α) (n : Nat) (hn : l.length = n) (f : Nat → α → α) :
    l.mapIdx (fun i c => if 0 ≤ i ∧ i < 0 + n then f (i - 0) c else c) = l.mapIdx f := by
  apply List.ext_getElem
  · simp
  · intro i h1 h2
    simp only [List.length_mapIdx] at h1
    simp [show i < n by omega]

theorem mapIdx_const {α : Type} (l : List α) (f : α → α) :
    l.mapIdx (fun _ c => f c) = l.map f := by
  apply List.ext_getElem <;> simp

/-- What a pass leaves as it was, however it ends. -/
theorem retrievePass_frame (s : State) :
    (retrievePass s).cfg = s.cfg ∧ (retrievePass s).pwr = s.pwr ∧ (retrievePass s).cmds = s.cmds ∧
      (retrievePass s).cs.map (·.dir) = s.cs.map (·.dir) ∧
      (∃ es, (retrievePass s).trace = s.trace ++ es) ∧
      (retrievePass s).store.length = s.store.length ∧
      (retrievePass s).cs.length = s.cs.length := by
  obtain ⟨b, -, he⟩ | ⟨b, j, -, -, -, he⟩ := retrievePass_cases s
  · rw [he]
    refine ⟨rfl, rfl, rfl, ?_, ⟨_, by simp [channelsDone]; rfl⟩, by simp [channelsDone],
      by simp [channelsDone]⟩
    apply List.ext_getElem
    · simp [channelsDone]
    · intro i h1 h2
      simp only [emit_cs, channelsDone, List.getElem_map, List.getElem_mapIdx]
      split <;> rfl
  · rw [he]
    refine ⟨rfl, rfl, rfl, ?_, ⟨_, by simp [channelsBlocked, channelsDone]; rfl⟩,
      by simp [channelsBlocked, channelsDone], by simp [channelsBlocked, channelsDone]⟩
    apply List.ext_getElem
    · simp [channelsBlocked, channelsDone]
    · intro i h1 h2
      simp only [channelsBlocked, channelsDone, List.getElem_map, List.getElem_modify,
        List.getElem_mapIdx]
      repeat' split
      all_goals rfl

end Sys2Proof.Machine
end

