-- ==== Sys2Proof/Laws/Step.lean ====
section
/-! SUPPORT. What a step can do, said once. -/

namespace Sys2Proof.Machine

/-- A step that answers a next state found the block not `BUSY`, and it is an idle one or that of one decoded command. -/
theorem step_eq_next {s t : State} (h : step s = .next t) :
    s.busy = false ∧
      ((s.cmds = [] ∧ t = s) ∨
        ∃ (c : Byte) (rest : List Byte) (i : Instr), s.cmds = c :: rest ∧ decodeByte c = .ok i ∧
          exec i { s with cmds := rest } = .next t) := by
  unfold step at h
  split at h
  · cases h
  · next hb =>
    refine ⟨by simpa using hb, ?_⟩
    unfold fetch at h
    cases hc : s.cmds with
    | nil => simp only [hc] at h; cases h; exact .inl ⟨rfl, rfl⟩
    | cons c rest =>
      simp only [hc] at h
      cases hd : decodeByte c with
      | error e => simp [hd] at h
      | ok i => simp only [hd] at h; exact .inr ⟨c, rest, i, rfl, hd, h⟩

theorem step_of_busy {s : State} (h : s.busy = true) : step s = .fault .blockedExchange := by
  simp [step, h]

theorem fetch_of_cons {s : State} {c : Byte} {rest : List Byte} (h : s.cmds = c :: rest) :
    fetch s = some (c, { s with cmds := rest }) := by
  simp [fetch, h]

theorem fetch_of_nil {s : State} (h : s.cmds = []) : fetch s = none := by
  simp [fetch, h]

end Sys2Proof.Machine
end

