-- ==== Sys2Proof/Laws/Word.lean ====
section
/-! SUPPORT. The word's fields and the conversions as plain arithmetic. -/

namespace Sys2Proof.Machine

theorem tcField_toNat (w : Word) : (tcField w).toNat = w.toNat / 2 ^ 18 := by
  have hm : (0x3FFF#32).toNat = 2 ^ 14 - 1 := rfl
  simp only [tcField, BitVec.toNat_setWidth, BitVec.toNat_and, BitVec.toNat_ushiftRight,
    Nat.shiftRight_eq_div_pow]
  rw [hm, Nat.and_two_pow_sub_one_eq_mod]
  have := w.isLt
  omega

theorem ambField_toNat (w : Word) : (ambField w).toNat = w.toNat / 2 ^ 4 % 2 ^ 12 := by
  have hm : (0xFFF#32).toNat = 2 ^ 12 - 1 := rfl
  simp only [ambField, BitVec.toNat_setWidth, BitVec.toNat_and, BitVec.toNat_ushiftRight,
    Nat.shiftRight_eq_div_pow]
  rw [hm, Nat.and_two_pow_sub_one_eq_mod]
  have := w.isLt
  omega

/-- The 16-bit register holds the field's own integer. -/
theorem tcRaw_toInt_eq (w : Word) : (tcRaw w).toInt = (tcField w).toInt :=
  BitVec.toInt_signExtend_of_le (by omega)

/-- The 16-bit register holds the field's own integer. -/
theorem ambRaw_toInt_eq (w : Word) : (ambRaw w).toInt = (ambField w).toInt :=
  BitVec.toInt_signExtend_of_le (by omega)

/-- The four bytes in order, the first most significant. -/
theorem assemble_eq_append (b0 b1 b2 b3 : Byte) :
    assemble b0 b1 b2 b3 = (b0 ++ (b1 ++ (b2 ++ b3)) : BitVec 32) := by
  unfold assemble
  apply BitVec.eq_of_getLsbD_eq
  intro i hi
  simp only [BitVec.getLsbD_or, BitVec.getLsbD_shiftLeft, BitVec.getLsbD_setWidth,
    BitVec.getLsbD_append]
  by_cases h1 : i < 8
  · simp [h1, hi, show i < 16 by omega, show i < 24 by omega]
  · have g3 : b3.getLsbD i = false := BitVec.getLsbD_of_ge _ _ (by omega)
    by_cases h2 : i < 16
    · simp [h1, h2, hi, g3, show i < 24 by omega, show i - 8 < 8 by omega, show i - 8 < 32 by omega]
    · have g2 : b2.getLsbD (i - 8) = false := BitVec.getLsbD_of_ge _ _ (by omega)
      by_cases h3 : i < 24
      · simp [h1, h2, h3, hi, g3, g2, show i - 16 < 32 by omega, show i - 16 < 8 by omega]
      · have g1 : b1.getLsbD (i - 16) = false := BitVec.getLsbD_of_ge _ _ (by omega)
        simp [h1, h2, h3, hi, g3, g2, g1, show i - 24 < 32 by omega]

/-- The low three bits as numbers. -/
theorem flagBits (w : Word) :
    w.getLsbD 0 = decide (w.toNat % 2 = 1) ∧ w.getLsbD 1 = decide (w.toNat / 2 % 2 = 1) ∧
      w.getLsbD 2 = decide (w.toNat / 4 % 2 = 1) := by
  simp [BitVec.getLsbD, Nat.testBit_eq_decide_div_mod_eq]

theorem sdiv_trunc_of_nonneg {a : Int} (d : Int) (h : 0 ≤ a) : sdiv .trunc a d = a / d := by
  simp [sdiv, h]

theorem sdiv_trunc_of_neg {a : Int} (d : Int) (h : a < 0) : sdiv .trunc a d = -((-a) / d) := by
  simp [sdiv, show ¬ 0 ≤ a by omega]

theorem sdiv_floor (a d : Int) : sdiv .floor a d = a / d := rfl

/-- A value in the 16-bit range survives the result register. -/
theorem degrees_toInt {v : Int} (h1 : -32768 ≤ v) (h2 : v < 32768) : (degrees v).toInt = v := by
  rw [degrees, BitVec.toInt_ofInt]
  exact Int.bmod_eq_of_le (by omega) (by omega)

end Sys2Proof.Machine
end

