-- ==== Sys2Proof/Tests/Slice0.lean ====
section
/-! SUPPORT. Tests whose expected results are the worked vectors of spec/95_test_vectors.md, the smoke tests of the
well-formedness checks, and for each statement with hypotheses a state and operands that meet them. -/

namespace Sys2Proof.Tests

open Sys2Proof Sys2Proof.Machine Sys2Proof.Claims

/-- A configuration of `n` channels on pins 1 to `n`, power on pin 0. -/
def conf (n : Nat) : Config :=
  { pwrPin := 0, csPins := List.range' 1 n, divRound := .trunc, diagEnable := true }

/-- A block of `n` channels after CONSTRUCT, the environment ready to answer `bs`. -/
def fresh (n : Nat) (bs : List Byte) : State :=
  { State.construct (conf n) with replies := bs.map .byte }

/-- A two-channel block with the store of spec/95_test_vectors.md section 2.5. -/
def stored : State :=
  { fresh 2 [] with
    store := [{ tc := 400#16, amb := 400#16, flt := .none },
              { tc := 0xFC18#16, amb := 0xFC90#16, flt := .disconnected }] }

/-- `s` with the host's next command. -/
def withCmd (c : Byte) (s : State) : State := { s with cmds := [c] }

/-- A two-channel block whose sixth exchange never returns. -/
def hanging : State :=
  { fresh 2 [] with replies := [.byte 6, .byte 64, .byte 0, .byte 0, .byte 255, .never] }

/-- A block stuck in a blocked exchange of channel 2. -/
def stuck : State :=
  { fresh 2 [] with
    pass := some { ch := 2, w := 0x06400000#32, good := 0 }
    cs := [{ dir := .unwritten, lvl := .wrote .high }, { dir := .unwritten, lvl := .wrote .low }] }

/-- The next state, where there is one. -/
def nextOf (o : Host.Outcome State Fault Refusal) : Option State :=
  match o with
  | .next s => some s
  | .fault _ => none
  | .refused _ => none

/-- What an operation returns. -/
def resultOf (i : Instr) (s : State) : Option Res := (nextOf (exec i s)).bind lastResult

/-- The events an operation adds to an empty trace. -/
def traceOf (i : Instr) (s : State) : Option (List Event) := (nextOf (exec i s)).map (·.trace)

/-! Well-formedness: an ill-formed term for each check, refused. -/

theorem test_wf_refuses_getTcC_8 : ¬ (Instr.getTcC 8).wf := by decide
theorem test_wf_refuses_getTcF_8 : ¬ (Instr.getTcF 8).wf := by decide
theorem test_wf_refuses_getAmbC_8 : ¬ (Instr.getAmbC 8).wf := by decide
theorem test_wf_refuses_getAmbF_8 : ¬ (Instr.getAmbF 8).wf := by decide
theorem test_wf_refuses_getFault_8 : ¬ (Instr.getFault 8).wf := by decide
theorem test_wf_accepts_getFault_7 : (Instr.getFault 7).wf := by decide
theorem test_config_refuses_no_channel : configOk (conf 0) = false := by decide
theorem test_config_refuses_five_channels : configOk (conf 5) = false := by decide
theorem test_config_accepts_one_and_four : configOk (conf 1) = true ∧ configOk (conf 4) = true := by
  decide
theorem test_config_refuses_shared_cs_pin :
    configOk { conf 2 with csPins := [7, 7] } = false := by decide
theorem test_config_refuses_cs_on_power_pin :
    configOk { conf 2 with csPins := [0, 1] } = false := by decide

/-! Decoding: words written out from spec/30_encoding.md R58, the reserved ones from section 2.7 of the vectors. -/

theorem test_decode_init : decodeByte 0b00000000#8 = .ok .init := rfl
theorem test_decode_pwrOn : decodeByte 0b00010000#8 = .ok .pwrOn := rfl
theorem test_decode_pwrOff : decodeByte 0b00100000#8 = .ok .pwrOff := rfl
theorem test_decode_teardown : decodeByte 0b00110000#8 = .ok .teardown := rfl
theorem test_decode_retrieve : decodeByte 0b01000000#8 = .ok .retrieve := rfl
theorem test_decode_getTcC_7 : decodeByte 0b01010111#8 = .ok (.getTcC 7) := rfl
theorem test_decode_getTcF_3 : decodeByte 0b01100011#8 = .ok (.getTcF 3) := rfl
theorem test_decode_getAmbC_1 : decodeByte 0b01110001#8 = .ok (.getAmbC 1) := rfl
theorem test_decode_getAmbF_0 : decodeByte 0b10000000#8 = .ok (.getAmbF 0) := rfl
theorem test_decode_getFault_4 : decodeByte 0b10010100#8 = .ok (.getFault 4) := rfl
theorem test_decode_reserved_01 : decodeByte 0x01#8 = .error .operandOnFormatZ := rfl
theorem test_decode_reserved_48 : decodeByte 0x48#8 = .error .operandOnFormatZ := rfl
theorem test_decode_reserved_58 : decodeByte 0x58#8 = .error .zBitSet := rfl
theorem test_decode_reserved_A0 : decodeByte 0xA0#8 = .error .unassignedOp := rfl
theorem test_decode_reserved_FF : decodeByte 0xFF#8 = .error .unassignedOp := rfl
theorem test_decode_no_byte : decode [] = .error .noByte := rfl
theorem test_decodeTableWord : decodeTableWord 8 0x57 = some (.getTcC 7) := rfl
theorem test_text_getTcC_1 : (Instr.getTcC 1).text = "GETTC_C 1" ∧ Instr.init.text = "INIT" := by
  decide

/-! The functions of the word and the conversions: sections 2.1 to 2.4 of the vectors. -/

theorem test_word_A9_A10 : assemble 0x06#8 0x40#8 0x00#8 0x00#8 = 0x06400000#32 ∧
    assemble 0x00#8 0x00#8 0x40#8 0x06#8 = 0x00004006#32 := by decide
theorem test_word_D9 : tcRaw 0xF061C901#32 = 0xFC18#16 ∧ ambRaw 0xF061C901#32 = 0xFC90#16 := by
  decide
theorem test_word_D4_D5 : tcRaw 0x80008000#32 = 0xE000#16 ∧ ambRaw 0x80008000#32 = 0xF800#16 ∧
    tcRaw 0x7FFC7FF0#32 = 0x1FFF#16 ∧ ambRaw 0x7FFC7FF0#32 = 0x07FF#16 := by decide
theorem test_busError_A5_A7 : isBusError 0x00000008#32 = false ∧ isBusError 0xFFFFFFF7#32 = false := by
  decide
theorem test_fault_F1_F3_F7 : faultClass 1#32 = .disconnected ∧ faultClass 3#32 = .shortToGround ∧
    faultClass 7#32 = .shortToSupply := by decide
theorem test_fault_F8_F9_F10 : faultClass 8#32 = .none ∧ faultClass 0x00010000#32 = .none ∧
    faultClass 0x00030009#32 = .disconnected := by decide
theorem test_convert_C13 : cQuarter .trunc (-161) = -40 ∧ cQuarter .floor (-161) = -41 ∧
    fQuarter .trunc (-161) = -40 ∧ fQuarter .floor (-161) = -41 := by decide
theorem test_convert_C21 : fQuarter .trunc (-8192) = -3654 ∧ fQuarter .floor (-8192) = -3655 := by
  decide
theorem test_convert_C43 : cSixteenth .trunc (-285) = -17 ∧ cSixteenth .floor (-285) = -18 ∧
    fSixteenth .trunc (-285) = 0 ∧ fSixteenth .floor (-285) = -1 := by decide

/-! One step of each operation: sections 2.5 and 2.6 of the vectors and the programs P1 and P3. -/

theorem test_init_trace : traceOf .init (fresh 2 []) = some
    [.pinDir 0 .output, .pinDir 1 .output, .pinDir 2 .output, .pinLevel 1 .high, .pinLevel 2 .high,
     .pinLevel 0 .low] := by decide
theorem test_init_clears : ((nextOf (exec .init stored)).map (·.store)) =
    some [Slot.zero, Slot.zero] := by decide
theorem test_pwrOn_trace : traceOf .pwrOn (fresh 2 []) = some
    [.pinLevel 1 .high, .pinLevel 2 .high, .pinLevel 0 .high] := by decide
theorem test_pwrOn_keeps_store : ((nextOf (exec .pwrOn stored)).map (·.store)) = some stored.store := by
  decide
theorem test_pwrOff_trace : traceOf .pwrOff (fresh 2 []) = some
    [.pinLevel 0 .low, .pinLevel 1 .high, .pinLevel 2 .high] := by decide
theorem test_teardown_trace : traceOf .teardown (fresh 2 []) = some
    [.pinLevel 0 .low, .pinDir 1 .input, .pinDir 2 .input] := by decide
theorem test_teardown_keeps_levels :
    ((nextOf (exec .teardown { stuck with pass := none })).map (·.cs)) =
      some [{ dir := .wrote .input, lvl := .wrote .high }, { dir := .wrote .input, lvl := .wrote .low }] := by
  decide
theorem test_retrieve_P1 : resultOf .retrieve (fresh 2 [6, 64, 0, 0, 255, 255, 255, 255]) = some 1#16 ∧
    ((nextOf (exec .retrieve (fresh 2 [6, 64, 0, 0, 255, 255, 255, 255]))).map (·.store)) =
      some [{ tc := 400#16, amb := 0#16, flt := .none }, { tc := 0#16, amb := 0#16, flt := .busError }] := by
  decide
/-- spec/41_retrieve_and_decode.md R83, R89: channel 1 whole, then channel 2 up to the exchange that never returns. -/
theorem test_retrieve_blocked_trace : traceOf .retrieve hanging = some
    [.pinLevel 1 .low, .exchange (Config.dummyByte 0) 6#8, .exchange (Config.dummyByte 1) 64#8,
     .exchange (Config.dummyByte 2) 0#8, .exchange (Config.dummyByte 3) 0#8, .pinLevel 1 .high,
     .pinLevel 2 .low, .exchange (Config.dummyByte 4) 255#8] := rfl
theorem test_retrieve_P3_stale :
    ((nextOf (exec .retrieve
      { fresh 1 [255, 255, 255, 255] with store := [{ tc := 90#16, amb := 359#16, flt := .none }] })).map
        (·.store)) = some [{ tc := 90#16, amb := 359#16, flt := .busError }] := by decide
theorem test_getTcC_I9_I13 : resultOf (.getTcC 1) stored = some 100#16 ∧
    resultOf (.getTcC 2) stored = some 0xFF06#16 := by decide
theorem test_getTcC_I6 : traceOf (.getTcC 0) stored =
    some [.diag .invalidIndexKind, .ret 0#16] := by decide
theorem test_getTcF_I10_I14 : resultOf (.getTcF 1) stored = some 212#16 ∧
    resultOf (.getTcF 2) stored = some 0xFE5E#16 := by decide
theorem test_getTcF_I7 : resultOf (.getTcF 3) stored = some 0#16 := by decide
theorem test_getAmbC_I11_I15 : resultOf (.getAmbC 1) stored = some 25#16 ∧
    resultOf (.getAmbC 2) stored = some 0xFFC9#16 := by decide
theorem test_getAmbF_I12_I16 : resultOf (.getAmbF 1) stored = some 77#16 ∧
    resultOf (.getAmbF 2) stored = some 0xFFBD#16 := by decide
theorem test_getAmbF_I8 : resultOf (.getAmbF 0) stored = some 0#16 := by decide
theorem test_getFault_I2_I3 : traceOf (.getFault 1) stored = some [.ret 0#16] ∧
    resultOf (.getFault 2) stored = some 3#16 := by decide
theorem test_getFault_I1_I4 : resultOf (.getFault 0) stored = some 4#16 ∧
    resultOf (.getFault 3) stored = some 4#16 := by decide
theorem test_step_reserved : step (withCmd 0x48#8 stored) =
    .refused (.reservedCommand 0x48#8 .operandOnFormatZ) := rfl
theorem test_step_retrieve_after_reset :
    step (State.reset.withFetchWord 8 0x40) = exec .retrieve State.reset := rfl
theorem test_reset_idles : step State.reset = .next State.reset := rfl

/-! The hypotheses of each statement can be met. -/

/-- The bytes the environment of `fresh 2 _` answers in the witnesses: channel 1 valid, channel 2 all ones. -/
def someBytes (j : Nat) : Byte := [6#8, 64#8, 0#8, 0#8, 255#8, 255#8, 255#8, 255#8].getD j 0#8

/-- As `someBytes`, with channel 2 valid too. -/
def validBytes (j : Nat) : Byte := [6#8, 64#8, 0#8, 0#8, 255#8, 255#8, 255#8, 247#8].getD j 0#8

def answering : State := fresh 2 ((List.range 8).map someBytes)

def answeringValid : State := fresh 2 ((List.range 8).map validBytes)

theorem witness_StepRunsDecodedCommand :
    (withCmd 0x51#8 stored).busy = false ∧ (withCmd 0x51#8 stored).cmds = 0x51#8 :: [] ∧
      decodeByte 0x51#8 = .ok (.getTcC 1) := ⟨rfl, rfl, rfl⟩
theorem witness_StepRunsEncodedOperation :
    (Instr.getTcC 7).wf ∧ (withCmd 0x57#8 stored).busy = false ∧
      (withCmd 0x57#8 stored).cmds = encode (.getTcC 7) ++ [] := by decide
theorem witness_FetchWordRunsNext : decodeTableWord 8 0x94 = some (.getFault 4) := rfl
theorem witness_ReservedWordsRefused :
    (withCmd 0x48#8 stored).busy = false ∧ (withCmd 0x48#8 stored).cmds = 0x48#8 :: [] ∧
      reservedWord 0x48#8 ∧ reservedWord 0xA0#8 ∧ reservedWord 0x98#8 := by decide
theorem witness_DecodeOfEncodeIsIdentity : (Instr.getAmbF 7).wf := by decide
theorem witness_EncodeOfDecodeIsIdentity : decodeByte 0x67#8 = .ok (.getTcF 7) := rfl
theorem witness_IdleHoldsState : stored.busy = false ∧ stored.cmds = [] := by decide
theorem witness_Ready : Ready stored ∧ shaped stored ∧ Ready (fresh 1 []) ∧ Ready (fresh 4 []) := by
  decide
theorem witness_BusyAndReplyNever :
    (nextOf (exec .retrieve hanging)).map (·.busy) = some true ∧ replyAt hanging 5 = .never := by decide
theorem witness_HostHasNoMoveWhileBusy : configOk stuck.cfg = true ∧ stuck.busy = true := by decide
theorem witness_OnlyQtcDecConfigurationsRun : configOk (fresh 5 []).cfg = false := by decide
theorem witness_ResetClearsChannelStore :
    Ready (fresh 4 []) ∧ shaped (fresh 4 []) ∧
      (fresh 4 []).store = List.replicate (fresh 4 []).cfg.n { tc := 0#16, amb := 0#16, flt := .none } ∧
      1 ≤ 1 ∧ 1 ≤ (fresh 4 []).cfg.n ∧ 4 ≤ (fresh 4 []).cfg.n := by decide
theorem witness_ResetMeetsTheInvariant : configOk (conf 1) = true ∧ configOk (conf 4) = true := by decide
theorem witness_StepKeepsTheInvariant :
    (withCmd 0x10#8 stored).Inv ∧ ∃ t, step (withCmd 0x10#8 stored) = .next t := ⟨by decide, _, rfl⟩
theorem witness_exec_answers : ∃ t, exec .retrieve answering = .next t := ⟨_, rfl⟩
theorem witness_step_answers : ∃ t, step (withCmd 0x40#8 answering) = .next t := ⟨_, rfl⟩
theorem witness_PowerOperationsIgnoreStore :
    (∃ t, exec .pwrOn stored = .next t) ∧ (∃ t, exec .pwrOff stored = .next t) ∧
      ∃ t, exec .teardown stored = .next t := ⟨⟨_, rfl⟩, ⟨_, rfl⟩, ⟨_, rfl⟩⟩
theorem witness_FieldsAreIndependent :
    (0x06400000#32).toNat / 2 ^ 18 = (0x0643FFFF#32).toNat / 2 ^ 18 ∧
      (0x00001900#32).toNat / 2 ^ 4 % 2 ^ 12 = (0xFFFF190F#32).toNat / 2 ^ 4 % 2 ^ 12 ∧
      (0x00000001#32).toNat % 8 = (0xFFFFFFF9#32).toNat % 8 := by decide
theorem witness_FieldsAreFull : (-8192 : Int) ≤ -8192 ∧ (-8192 : Int) ≤ 8191 ∧ (-2048 : Int) ≤ 2047 ∧
    (2047 : Int) ≤ 2047 ∧ FaultClass.shortToSupply ≠ .busError := by decide
theorem witness_FaultClassPriority : (8#32).toNat % 8 = 0 ∧ (9#32).toNat % 8 = 1 ∧
    (2#32).toNat % 8 = 2 ∧ (3#32).toNat % 8 = 3 ∧ 4 ≤ (4#32).toNat % 8 ∧ 4 ≤ (7#32).toNat % 8 := by decide
theorem witness_ExchangeFrame_answered :
    1 ≤ (startPass answering).ch ∧ (startPass answering).ch ≤ answering.cs.length ∧
      Answers someBytes 4 answering := by
  unfold Answers
  decide
theorem witness_ExchangeFrame_never :
    Answers someBytes 0 { hanging with replies := [.never] } ∧
      replyAt { hanging with replies := [.never] } 0 = .never ∧
      Answers someBytes 3 { hanging with replies := [.byte 6, .byte 64, .byte 0, .never] } ∧
      replyAt { hanging with replies := [.byte 6, .byte 64, .byte 0, .never] } 3 = .never := by
  unfold Answers
  decide
theorem witness_DecodeStoresTriple :
    stored.store[1]? = some { tc := 0xFC18#16, amb := 0xFC90#16, flt := .disconnected } ∧
      ¬ specialWord 0xFFFFFFFE#32 ∧ ¬ specialWord 0x00000001#32 := by decide
theorem witness_DecodeOfSpecialWord :
    stored.store[0]? = some { tc := 400#16, amb := 400#16, flt := .none } ∧
      specialWord 0x00000000#32 ∧ specialWord 0xFFFFFFFF#32 ∧
      Answers (fun _ => 255#8) 4 (fresh 1 [255, 255, 255, 255]) ∧
      specialWord (assemble 255#8 255#8 255#8 255#8) := by
  unfold Answers
  decide
theorem witness_RetrieveWholePass :
    Ready answering ∧ shaped answering ∧ Answers someBytes (4 * answering.cfg.n) answering := by
  unfold Answers
  decide
theorem witness_RetrieveStoreDiscipline :
    (Instr.retrieve ≠ .init) ∧ (∃ t, exec .retrieve answering = .next t ∧
      answering.store[0]? = some Slot.zero ∧ answering.store[1]? = some Slot.zero ∧
      t.store[0]? = some { tc := 400#16, amb := 0#16, flt := .none } ∧
      t.store[1]? = some { Slot.zero with flt := .busError }) ∧
    ∃ t, exec .retrieve hanging = .next t ∧ t.store[1]? = some Slot.zero := by
  exact ⟨by decide, ⟨_, rfl, by decide⟩, _, rfl, by decide⟩
theorem witness_BlockedExchange :
    Ready hanging ∧ shaped hanging ∧ 5 < 4 * hanging.cfg.n ∧ Answers someBytes 5 hanging ∧
      replyAt hanging 5 = .never := by
  unfold Answers
  decide
theorem witness_BlockedPass_first_and_last :
    Ready { fresh 2 [] with replies := [.never] } ∧ replyAt { fresh 2 [] with replies := [.never] } 0 = .never ∧
      Answers someBytes 7 { answering with replies := answering.replies.take 7 ++ [.never] } ∧
      replyAt { answering with replies := answering.replies.take 7 ++ [.never] } 7 = .never := by
  unfold Answers
  decide
theorem witness_PassIsAscendingChannelSteps :
    1 ≤ answering.cfg.n ∧ 2 ≤ answering.cfg.n ∧ Answers someBytes (4 * 1) answering := by
  unfold Answers
  decide
/-- The state after a pass of `answering`, with the same answers ready again. -/
def again : State :=
  { answering with store := [{ tc := 400#16, amb := 0#16, flt := .none }, { Slot.zero with flt := .busError }] }

theorem witness_RetrieveRepeats_store :
    ((∃ t, exec .retrieve answering = .next t ∧ again.store = t.store) ∧ Ready again ∧ shaped again ∧
      again.cfg = answering.cfg) ∧ Answers someBytes (4 * answering.cfg.n) again := by
  unfold Answers
  exact ⟨⟨⟨_, rfl, by decide⟩, by decide⟩, by decide⟩
theorem witness_RetrieveRepeats_valid :
    Ready answeringValid ∧ shaped answeringValid ∧
      (∀ i < answeringValid.cfg.n, ¬ specialWord (wordOf validBytes i)) ∧
      Answers validBytes (4 * answeringValid.cfg.n) answeringValid := by
  unfold Answers
  decide
theorem witness_DivisionRounding : (0 : Int) < 5 ∧ (-4 : Int) ≤ 0 ∧ (-5 : Int) < -4 ∧ (-4 : Int) < 5 ∧
    (5 : Int) ∣ -10 := by decide
theorem witness_ResultsFit : (-8192 : Int) ≤ -8192 ∧ (8191 : Int) ≤ 8191 ∧ (-2048 : Int) ≤ 2047 := by decide
theorem witness_accessor_valid : Ready stored ∧ 1 ≤ 1 ∧ 1 ≤ stored.cfg.n ∧ 2 ≤ stored.cfg.n ∧
    stored.store[1 - 1]? = some { tc := 400#16, amb := 400#16, flt := .none } ∧
    stored.store[2 - 1]? = some { tc := 0xFC18#16, amb := 0xFC90#16, flt := .disconnected } := by decide
theorem witness_accessor_invalid : stored.cfg.n < 3 ∧ accessorIdx (.getTcC 0) = some 0 ∧
    accessorIdx (.getFault 3) = some 3 ∧ accessorIdx (.getAmbF 2) = some 2 := by decide
theorem witness_AccessorsWriteNothing :
    accessorIdx (.getTcF 2) = some 2 ∧ Instr.getTcF 2 ≠ .getFault 2 ∧
      ∃ t, exec (.getTcF 2) stored = .next t := ⟨rfl, by decide, _, rfl⟩
theorem witness_AtMostOneChipSelected_step :
    (withCmd 0x40#8 hanging).Inv ∧ ∃ t, step (withCmd 0x40#8 hanging) = .next t ∧
      csLvlAt t 1 = .wrote .low := ⟨by decide, _, rfl, by decide⟩
theorem witness_AtMostOneChipSelected_pass :
    (∀ ch ∈ [1, 2], 1 ≤ ch ∧ ch ≤ hanging.cs.length) ∧ (∀ i, csLvlAt hanging i ≠ .wrote .low) ∧
      (∃ p t, passLoop [1] (startPass hanging) hanging = .done p t) ∧
      ∃ t, passLoop [1, 2] (startPass hanging) hanging = .blocked t := by
  refine ⟨by decide, fun i => ?_, ⟨_, _, rfl⟩, _, rfl⟩
  match i with
  | 0 => decide
  | 1 => decide
  | _ + 2 => exact nofun
theorem witness_DiagnosticsChangeNothingElse :
    ∃ t, exec (.getFault 0) (withDiag false stored) = .next t := ⟨_, rfl⟩
theorem witness_FaultCodes : faultCode .busError = faultCode .busError := rfl

end Sys2Proof.Tests
end

section
/-! The discipline of the channel store (spec/10_state.md R21): what an operation can make of one slot. -/

namespace Sys2Proof.Proofs

open Sys2Proof Sys2Proof.Machine Sys2Proof.Claims

/-- Apart from INIT and RETRIEVE, no operation writes the store. -/
theorem bodyOf_store {i : Instr} (hinit : i ≠ .init) (hret : i ≠ .retrieve) (s : State) :
    (bodyOf i s).store = s.store := by
  cases i with
  | init => exact absurd rfl hinit
  | retrieve => exact absurd rfl hret
  | pwrOn | pwrOff | teardown => rfl
  | getTcC | getTcF | getAmbC | getAmbF | getFault => rfl

/-- A pass, however it ends, decodes the slots of the `m` channels whose frames were answered to their end, and leaves
the other slots as they were: `m` is `N`, or the channel the pass is blocked in. -/
theorem retrievePass_store (s : State) :
    ∃ b m, m ≤ s.cfg.n ∧ Answers b (4 * m) s ∧
      (retrievePass s).store =
        s.store.mapIdx fun i c => if i < m then decodeSlot (wordOf b i) c else c := by
  obtain ⟨b, hb, he⟩ | ⟨b, j, hj, hb, -, he⟩ := retrievePass_cases s
  · exact ⟨b, s.cfg.n, le_rfl, hb, by simp [he, channelsDone]⟩
  · exact ⟨b, j / 4, by omega, fun i hi => hb i (by omega), by simp [he, channelsBlocked, channelsDone]⟩

/-- DECODE of one slot in the words of spec/30_encoding.md R52: the whole triple, or FLT alone. -/
theorem decodeSlot_cases (w : Word) (old : Slot) :
    (¬ specialWord w ∧ decodeSlot w old = { tc := tcRaw w, amb := ambRaw w, flt := faultClass w }) ∨
      (specialWord w ∧ decodeSlot w old = { old with flt := .busError }) := by
  by_cases hw : specialWord w
  · exact .inr ⟨hw, decodeSlot_of_busError ((isBusError_iff w).mpr hw) old⟩
  · exact .inl ⟨hw, decodeSlot_of_valid (Bool.eq_false_iff.mpr (mt (isBusError_iff w).mp hw)) old⟩

/-- Settles O34: only RETRIEVE touches the store, and it decodes exactly the slots whose frames were answered. -/
theorem retrieveStoreDiscipline : Obligations.RetrieveStoreDiscipline := by
  intro i s t hinit h
  obtain ⟨-, -, rfl⟩ := exec_eq_next h
  by_cases hret : i = .retrieve
  · subst hret
    obtain ⟨b, m, hm, hb, hstore⟩ := retrievePass_store s
    refine ⟨by simp [bodyOf, hstore], fun k old new hold hnew => ?_⟩
    have hnew' : new = if k < m then decodeSlot (wordOf b k) old else old := by
      simpa [bodyOf, hstore, List.getElem?_mapIdx, hold, eq_comm] using hnew
    by_cases hk : k < m
    · obtain rfl : new = decodeSlot (wordOf b k) old := by rw [hnew', if_pos hk]
      exact .inr ⟨rfl, by omega, b, fun j hj => hb j (by omega), decodeSlot_cases _ old⟩
    · exact .inl (by rw [hnew', if_neg hk])
  · rw [bodyOf_store hinit hret]
    exact ⟨rfl, fun k old new hold hnew => .inl (Option.some.inj (hnew.symm.trans hold))⟩

end Sys2Proof.Proofs
end

section
/-! The blocked exchange (spec/20_memory.md R44): what RETRIEVE leaves when one never answers, and that nothing moves
from there. -/

namespace Sys2Proof.Proofs

open Sys2Proof Sys2Proof.Machine

/-- A BUSY state has not ended its run, whatever commands wait. -/
theorem finalState_of_busy {s : State} (h : s.busy = true) : finalState s = false := by
  simp [finalState, h]

/-- A run of channels blocked in exchange `j` leaves the line of that exchange's channel LOW. -/
theorem csLvlAt_channelsBlocked_self {b : Nat → Byte} {k j : Nat} {q : Pass} {s : State}
    (h : k + j / 4 < s.cs.length) :
    csLvlAt (channelsBlocked b k j q s) (k + j / 4) = .wrote .low := by
  have hlen : k + j / 4 < (channelsDone b k (j / 4) none s).cs.length := by
    simpa [channelsDone] using h
  exact (getD_modify_lvl hlen (k + j / 4) .low).trans (if_pos rfl)

/-- Settles O35: the pass is left in the blocked channel with its line LOW, and a BUSY state stays BUSY whatever is
added to its commands and answers, so `step` faults there and it is never final. -/
theorem blockedExchangeIsStuck : Obligations.BlockedExchangeIsStuck := by
  rintro s b k ⟨hcfg, hidle⟩ ⟨-, hlines⟩ hk hanswers hnever
  have hnext := exec_of_ready .retrieve hcfg hidle
  rw [bodyOf, retrievePass_of_never hk hanswers hnever] at hnext
  have hlow := csLvlAt_channelsBlocked_self (b := b) (k := 0) (j := k) (s := s)
    (q := { passAfter b 0 (k / 4) (startPass s) with ch := k / 4 + 1 }) (by omega)
  rw [Nat.zero_add] at hlow
  exact ⟨_, hnext, rfl, rfl, hlow, fun _ _ => ⟨step_of_busy rfl, finalState_of_busy rfl⟩⟩

end Sys2Proof.Proofs
end

section
/-! PWRON, PWROFF and TEARDOWN (spec/40_lifecycle_and_pins.md R67 to R69, R71): their whole effect, and that the channel
store takes no part in it. -/

namespace Sys2Proof.Proofs

open Sys2Proof Sys2Proof.Machine Sys2Proof.Claims

@[simp] theorem pwrLevel_withStore (l : Level) (st : List Slot) (s : State) :
    pwrLevel l (withStore st s) = withStore st (pwrLevel l s) := rfl

@[simp] theorem allCsLevel_withStore (l : Level) (st : List Slot) (s : State) :
    allCsLevel l (withStore st s) = withStore st (allCsLevel l s) := rfl

@[simp] theorem allCsDir_withStore (m : PinMode) (st : List Slot) (s : State) :
    allCsDir m (withStore st s) = withStore st (allCsDir m s) := rfl

/-- A power operation is made of pin writes, so replacing the store commutes with it. -/
theorem bodyOf_withStore_of_power {i : Instr} (hi : i = .pwrOn ∨ i = .pwrOff ∨ i = .teardown)
    (st : List Slot) (s : State) : bodyOf i (withStore st s) = withStore st (bodyOf i s) := by
  obtain rfl | rfl | rfl := hi
  · simp [bodyOf]
  · simp [bodyOf]
  · simp [bodyOf]

/-- Settles O22: the store is unwritten by `bodyOf_store` and unread by `bodyOf_withStore_of_power`; acceptance does not
look at it either. -/
theorem powerOperationsIgnoreStore : Obligations.PowerOperationsIgnoreStore := by
  intro i s t hi h
  obtain ⟨hcfg, hidle, rfl⟩ := exec_eq_next h
  have hinit : i ≠ .init := by rintro rfl; simp at hi
  have hret : i ≠ .retrieve := by rintro rfl; simp at hi
  refine ⟨bodyOf_store hinit hret s, fun st => ?_⟩
  calc exec i (withStore st s)
      = .next (bodyOf i (withStore st s)) := exec_of_ready i hcfg hidle
    _ = .next (withStore st (bodyOf i s)) := by rw [bodyOf_withStore_of_power hi]

/-- Settles O19: an accepted PWRON runs the two pin writes of R67 and nothing more. -/
theorem powerOnWholeEffect : Obligations.PowerOnWholeEffect := by
  refine ⟨rfl, fun s ⟨hcfg, hidle⟩ => ?_⟩
  calc exec .pwrOn s
      = .next (pwrLevel .high (allCsLevel .high s)) := exec_of_ready .pwrOn hcfg hidle
    _ = _ := rfl

/-- Settles O20: an accepted PWROFF runs the two pin writes of R68 and nothing more. -/
theorem powerOffWholeEffect : Obligations.PowerOffWholeEffect := by
  refine ⟨rfl, fun s ⟨hcfg, hidle⟩ => ?_⟩
  calc exec .pwrOff s
      = .next (allCsLevel .high (pwrLevel .low s)) := exec_of_ready .pwrOff hcfg hidle
    _ = _ := rfl

/-- Settles O21: an accepted TEARDOWN runs the two pin writes of R69 and nothing more; they keep the configuration and
start no pass, so the block stays ready for every operation. -/
theorem teardownWholeEffect : Obligations.TeardownWholeEffect := by
  refine ⟨rfl, fun s ⟨hcfg, hidle⟩ => ?_⟩
  have hready : Ready (allCsDir .input (pwrLevel .low s)) := ⟨hcfg, hidle⟩
  exact ⟨allCsDir .input (pwrLevel .low s), exec_of_ready .teardown hcfg hidle, rfl,
    fun i => ⟨bodyOf i _, exec_of_ready i hready.1 hready.2⟩⟩

end Sys2Proof.Proofs
end

section
/-! The pure functions of the word (spec/41_retrieve_and_decode.md R77 to R80): assembly from four bytes, the bus-error
test, and the two raw values as two's-complement integers. -/

namespace Sys2Proof.Proofs

open Sys2Proof Sys2Proof.Machine

/-- Joining two words weighs the first by the width of the second. -/
theorem toNat_append_eq_add {m n : Nat} (x : BitVec m) (y : BitVec n) :
    (x ++ y).toNat = x.toNat * 2 ^ n + y.toNat := by
  rw [BitVec.toNat_append, ← Nat.shiftLeft_add_eq_or_of_lt y.isLt, Nat.shiftLeft_eq]

theorem assemble_toNat (b0 b1 b2 b3 : Byte) :
    (assemble b0 b1 b2 b3).toNat =
      b0.toNat * 2 ^ 24 + b1.toNat * 2 ^ 16 + b2.toNat * 2 ^ 8 + b3.toNat := by
  have h : (assemble b0 b1 b2 b3).toNat = (b0 ++ (b1 ++ (b2 ++ b3))).toNat := by
    rw [assemble_eq_append]
  simp only [h, toNat_append_eq_add]
  omega

/-- The bytes are the base-256 digits of the word's number, so equal words have equal bytes. -/
theorem assemble_inj {b0 b1 b2 b3 c0 c1 c2 c3 : Byte} :
    assemble b0 b1 b2 b3 = assemble c0 c1 c2 c3 ↔ b0 = c0 ∧ b1 = c1 ∧ b2 = c2 ∧ b3 = c3 := by
  refine ⟨fun h => ?_, fun ⟨h0, h1, h2, h3⟩ => by rw [h0, h1, h2, h3]⟩
  have hnum := congrArg BitVec.toNat h
  rw [assemble_toNat, assemble_toNat] at hnum
  simp only [← BitVec.toNat_inj]
  omega

/-- Every word is the assembly of its four octets. -/
theorem assemble_octets (w : Word) :
    assemble (w.extractLsb' 24 8) (w.extractLsb' 16 8) (w.extractLsb' 8 8) (w.extractLsb' 0 8) = w := by
  apply BitVec.eq_of_toNat_eq
  have hw := w.isLt
  simp only [assemble_toNat, BitVec.extractLsb'_toNat, Nat.shiftRight_eq_div_pow]
  omega

/-- Settles O24: the word's number is read off the bytes, which are its digits in base 256. -/
theorem assembleMostSignificantFirst : Obligations.AssembleMostSignificantFirst := by
  refine ⟨assemble_toNat, ⟨?_, fun w => ⟨(_, _, _, _), assemble_octets w⟩⟩, by decide⟩
  rintro ⟨b0, b1, b2, b3⟩ ⟨c0, c1, c2, c3⟩ h
  obtain ⟨rfl, rfl, rfl, rfl⟩ := assemble_inj.mp h
  rfl

/-- Settles O25: the two special words are themselves assemblies of equal bytes, so `assemble_inj` gives the bytes. -/
theorem busErrorIsAllZerosOrAllOnes : Obligations.BusErrorIsAllZerosOrAllOnes := by
  refine ⟨isBusError_iff, fun b0 b1 b2 b3 => ?_, by decide⟩
  have hzeros : 0x00000000#32 = assemble 0x00#8 0x00#8 0x00#8 0x00#8 := by decide
  have hones : 0xFFFFFFFF#32 = assemble 0xFF#8 0xFF#8 0xFF#8 0xFF#8 := by decide
  rw [isBusError_iff, hzeros, hones, assemble_inj, assemble_inj]

theorem getLsbD_iff_div_mod {n : Nat} (x : BitVec n) (i : Nat) :
    x.getLsbD i = true ↔ x.toNat / 2 ^ i % 2 = 1 := by
  rw [← BitVec.testBit_toNat, Nat.testBit_eq_decide_div_mod_eq, decide_eq_true_iff]

/-- Two's complement: the number when the sign bit is clear, the number minus the modulus when it is set. -/
theorem toInt_eq_twosComplement {n : Nat} (x : BitVec (n + 1)) :
    x.toInt = if x.toNat < 2 ^ n then (x.toNat : Int) else (x.toNat : Int) - 2 ^ (n + 1) := by
  have hhalf : 2 * x.toNat < 2 ^ (n + 1) ↔ x.toNat < 2 ^ n := by rw [Nat.pow_succ]; omega
  simp only [BitVec.toInt_eq_toNat_cond, hhalf]
  norm_cast

theorem tcRaw_toInt (w : Word) :
    (tcRaw w).toInt =
      if w.toNat / 2 ^ 18 < 2 ^ 13 then ((w.toNat / 2 ^ 18 : Nat) : Int)
      else ((w.toNat / 2 ^ 18 : Nat) : Int) - 2 ^ 14 := by
  rw [tcRaw_toInt_eq, toInt_eq_twosComplement, tcField_toNat]

theorem ambRaw_toInt (w : Word) :
    (ambRaw w).toInt =
      if w.toNat / 2 ^ 4 % 2 ^ 12 < 2 ^ 11 then ((w.toNat / 2 ^ 4 % 2 ^ 12 : Nat) : Int)
      else ((w.toNat / 2 ^ 4 % 2 ^ 12 : Nat) : Int) - 2 ^ 12 := by
  rw [ambRaw_toInt_eq, toInt_eq_twosComplement, ambField_toNat]

/-- The sign of the thermocouple value is the word's top bit. -/
theorem tcRaw_neg_iff (w : Word) : (tcRaw w).toInt < 0 ↔ w.getLsbD 31 = true := by
  have hw := w.isLt
  rw [tcRaw_toInt_eq, BitVec.toInt_neg_iff, tcField_toNat, getLsbD_iff_div_mod]
  omega

/-- The sign of the ambient value is bit 15 of the word. -/
theorem ambRaw_neg_iff (w : Word) : (ambRaw w).toInt < 0 ↔ w.getLsbD 15 = true := by
  rw [ambRaw_toInt_eq, BitVec.toInt_neg_iff, ambField_toNat, getLsbD_iff_div_mod]
  omega

/-- Settles O26: the register holds the 14-bit field's integer, whose range and sign follow. -/
theorem thermocoupleRawValue : Obligations.ThermocoupleRawValue := by
  refine ⟨fun w => ⟨tcRaw_toInt w, ?_, ?_, tcRaw_neg_iff w⟩, by decide⟩
  · exact tcRaw_toInt_eq w ▸ BitVec.le_toInt (tcField w)
  · exact Int.le_of_lt_add_one (tcRaw_toInt_eq w ▸ BitVec.toInt_lt (x := tcField w))

/-- Settles O27: the register holds the 12-bit field's integer, whose range and sign follow. -/
theorem ambientRawValue : Obligations.AmbientRawValue := by
  refine ⟨fun w => ⟨ambRaw_toInt w, ?_, ?_, ambRaw_neg_iff w⟩, by decide⟩
  · exact ambRaw_toInt_eq w ▸ BitVec.le_toInt (ambField w)
  · exact Int.le_of_lt_add_one (ambRaw_toInt_eq w ▸ BitVec.toInt_lt (x := ambField w))

end Sys2Proof.Proofs
end

section
/-! The micro-operations EXCH4 and DECODE (spec/41_retrieve_and_decode.md R83 to R85). -/

namespace Sys2Proof.Proofs

open Sys2Proof Sys2Proof.Machine Sys2Proof.Claims

/-- Settles O30: an answered frame is `exch4_of_answers`; one that never returns is `exch4_of_never`, which writes the
line of this channel LOW and leaves the store. -/
theorem exchangeFrameOfOneChip : Obligations.ExchangeFrameOfOneChip := by
  intro p s b hfirst hlast
  refine ⟨fun hanswers => exch4_of_answers hanswers, fun k hk hanswers hnever => ?_⟩
  have hline : p.ch - 1 < s.cs.length := by omega
  exact ⟨_, exch4_of_never hk hanswers hnever,
    (getD_modify_lvl hline (p.ch - 1) .low).trans (if_pos rfl), rfl⟩

/-- DECODE on a channel whose slot exists: that slot is decoded, the diagnostics are recorded, nothing else moves. -/
theorem decodeChannel_of_slot {p : Pass} {s : State} {old : Slot} (h : s.store[p.ch - 1]? = some old) :
    decodeChannel p s =
      { s with
        store := s.store.set (p.ch - 1) (decodeSlot p.w old)
        trace := s.trace ++ decodeEvents s.cfg p.w } := by
  have hstore : s.store.modify (p.ch - 1) (decodeSlot p.w)
      = s.store.set (p.ch - 1) (decodeSlot p.w old) := by
    simp [List.modify_eq_set_getElem?, h]
  rw [← hstore]
  rfl

theorem decodeEvents_of_busError {w : Word} (h : isBusError w = true) (c : Config) :
    decodeEvents c w = diagEvents c .busErrorKind := by
  simp [decodeEvents, h]

theorem decodeEvents_of_valid {w : Word} (h : isBusError w = false) (c : Config) :
    decodeEvents c w = [] := by
  simp [decodeEvents, h]

/-- Settles O31: a valid word decodes to the triple of its fields, whatever the slot held, with no diagnostics. -/
theorem decodeStoresTriple : Obligations.DecodeStoresTriple := by
  refine ⟨fun p s old hslot hw => ?_, by decide⟩
  have hvalid : isBusError p.w = false := Bool.eq_false_iff.mpr (mt (isBusError_iff p.w).mp hw)
  rw [decodeChannel_of_slot hslot, decodeSlot_of_valid hvalid, decodeEvents_of_valid hvalid,
    List.append_nil]

/-- Settles O32: a special word changes FLT alone and emits the hook's event; the channel's step is done all the same,
so the pass goes on from its state. -/
theorem decodeOfSpecialWord : Obligations.DecodeOfSpecialWord := by
  refine ⟨fun p s old hslot hw => ?_, fun ch rest p s b hanswers _ => ?_, by decide⟩
  · have hbus : isBusError p.w = true := (isBusError_iff p.w).mpr hw
    rw [decodeChannel_of_slot hslot, decodeSlot_of_busError hbus, decodeEvents_of_busError hbus]
    rfl
  · refine ⟨_, _, exch4_of_answers hanswers, rfl, rfl, ?_⟩
    rw [passLoop, passChannel, exch4_of_answers hanswers]
    rfl

end Sys2Proof.Proofs
end

section
/-! The unit conversions (spec/42_accessors_and_conversion.md R90, R92 to R95): the model's division is the library's
truncating or flooring one. -/

namespace Sys2Proof.Proofs

open Sys2Proof Sys2Proof.Machine

/-- Under `trunc`, division is `Int.tdiv`, which rounds toward zero. -/
theorem sdiv_trunc_eq_tdiv (a d : Int) : sdiv .trunc a d = Int.tdiv a d := by
  by_cases ha : 0 ≤ a
  · rw [sdiv_trunc_of_nonneg d ha, Int.tdiv_eq_ediv_of_nonneg ha]
  · have hneg : 0 ≤ -a := by omega
    calc sdiv .trunc a d
        = -(-a / d) := sdiv_trunc_of_neg d (by omega)
      _ = -Int.tdiv (-a) d := by rw [Int.tdiv_eq_ediv_of_nonneg hneg]
      _ = Int.tdiv a d := by rw [Int.neg_tdiv, neg_neg]

/-- Under `floor`, division by a non-negative number is `Int.fdiv`, which rounds toward negative infinity. -/
theorem sdiv_floor_eq_fdiv (a : Int) {d : Int} (hd : 0 ≤ d) : sdiv .floor a d = Int.fdiv a d :=
  (sdiv_floor a d).trans (Int.fdiv_eq_ediv_of_nonneg a hd).symm

/-- Settles O40: both conversions are one `sdiv`, which is the library's division under either rounding; the listed
values are evaluated. -/
theorem celsiusConversions : Obligations.CelsiusConversions := by
  refine ⟨fun m r => ⟨rfl, rfl⟩, fun r => ?_, by decide, by decide, by decide, by decide⟩
  exact ⟨sdiv_trunc_eq_tdiv r 4, sdiv_trunc_eq_tdiv r 16,
    sdiv_floor_eq_fdiv r (by decide), sdiv_floor_eq_fdiv r (by decide)⟩

/-- Settles O41: both conversions are two divisions in the stated order, each truncating under `trunc`; the listed values
are evaluated. -/
theorem fahrenheitConversions : Obligations.FahrenheitConversions := by
  refine ⟨fun m r => ⟨rfl, rfl⟩, fun r => ?_, by decide, by decide, by decide, by decide, by decide,
    by decide⟩
  constructor
  · rw [fQuarter, sdiv_trunc_eq_tdiv, sdiv_trunc_eq_tdiv]
  · rw [fSixteenth, sdiv_trunc_eq_tdiv, sdiv_trunc_eq_tdiv]

end Sys2Proof.Proofs
end

section
/-! The five accessors (spec/42_accessors_and_conversion.md R96 to R101): one form, in which only the index, the
sentinel and the value read from the slot differ. -/

namespace Sys2Proof.Proofs

open Sys2Proof Sys2Proof.Machine Sys2Proof.Claims

/-- What an accessor returns of the slot its index names; 0 for an operation that reads no slot. -/
def accessorValue (i : Instr) (cfg : Config) (c : Slot) : Res :=
  match i with
  | .getTcC _ => degrees (cQuarter cfg.divRound c.tc.toInt)
  | .getTcF _ => degrees (fQuarter cfg.divRound c.tc.toInt)
  | .getAmbC _ => degrees (cSixteenth cfg.divRound c.amb.toInt)
  | .getAmbF _ => degrees (fSixteenth cfg.divRound c.amb.toInt)
  | .getFault _ => faultCode c.flt
  | .init | .pwrOn | .pwrOff | .teardown | .retrieve => 0#16

/-- An accessor is the common form of R96 with its own sentinel and value. -/
theorem bodyOf_accessor {i : Instr} {idx : Nat} (hi : accessorIdx i = some idx) (s : State) :
    bodyOf i s = access idx (sentinelOf i) (accessorValue i s.cfg) s := by
  cases i with
  | init | pwrOn | pwrOff | teardown | retrieve => cases hi
  | getTcC | getTcF | getAmbC | getAmbF | getFault => cases hi; rfl

theorem slotAt_of_getElem? {k : Nat} {s : State} {c : Slot} (h : s.store[k]? = some c) :
    slotAt k s = c := by
  simp [slotAt, h]

section Outcomes

variable {i : Instr} {idx : Nat} {s : State}

/-- On an index of 1 to `N` an accessor only emits the return of its slot's value. -/
theorem exec_accessor_of_valid (hi : accessorIdx i = some idx) (hready : Ready s)
    (hfirst : 1 ≤ idx) (hlast : idx ≤ s.cfg.n) :
    exec i s = .next
      { s with trace := s.trace ++ [.ret (accessorValue i s.cfg (slotAt (idx - 1) s))] } := by
  rw [exec_of_ready i hready.1 hready.2, bodyOf_accessor hi, access_of_valid _ _ hfirst hlast]
  rfl

/-- On any other index it only emits the diagnostics event, if the hook exists, and the return of its sentinel. -/
theorem exec_accessor_of_invalid (hi : accessorIdx i = some idx) (hready : Ready s)
    (hidx : idx = 0 ∨ s.cfg.n < idx) :
    exec i s = .next
      { s with trace := s.trace ++ (if s.cfg.diagEnable then [.diag .invalidIndexKind] else []) ++
          [.ret (sentinelOf i)] } := by
  rw [exec_of_ready i hready.1 hready.2, bodyOf_accessor hi, access_of_invalid _ _ hidx, emit,
    ← List.append_assoc]
  rfl

/-- Both outcomes of an accessor, the valid one by the slot the store holds. -/
theorem exec_accessor (hi : accessorIdx i = some idx) (hready : Ready s) :
    (∀ c : Slot, 1 ≤ idx → idx ≤ s.cfg.n → s.store[idx - 1]? = some c →
      exec i s = .next { s with trace := s.trace ++ [.ret (accessorValue i s.cfg c)] }) ∧
    (idx = 0 ∨ s.cfg.n < idx →
      exec i s = .next
        { s with trace := s.trace ++ (if s.cfg.diagEnable then [.diag .invalidIndexKind] else []) ++
            [.ret (sentinelOf i)] }) := by
  refine ⟨fun c hfirst hlast hslot => ?_, exec_accessor_of_invalid hi hready⟩
  rw [exec_accessor_of_valid hi hready hfirst hlast, slotAt_of_getElem? hslot]

end Outcomes

/-- Settles O50: what an accessor answers on an invalid index mentions no slot, so it is the same for every store. -/
theorem invalidIndexReadsNothing : Obligations.InvalidIndexReadsNothing := by
  intro i idx s hi hready
  refine ⟨fun hidx st => ?_, fun hfirst hlast => ⟨_, exec_accessor_of_valid hi hready hfirst hlast⟩⟩
  have hready' : Ready (withStore st s) := hready
  exact exec_accessor_of_invalid hi hready' hidx

/-- Settles O44: GETTC_C is the accessor whose value is `cQuarter` of the slot's `tc`. -/
theorem thermocoupleCelsiusResult : Obligations.ThermocoupleCelsiusResult :=
  ⟨by decide, fun _ idx hready => exec_accessor (i := .getTcC idx) rfl hready⟩

/-- Settles O45: GETTC_F is the accessor whose value is `fQuarter` of the slot's `tc`. -/
theorem thermocoupleFahrenheitResult : Obligations.ThermocoupleFahrenheitResult :=
  ⟨by decide, fun _ idx hready => exec_accessor (i := .getTcF idx) rfl hready⟩

/-- Settles O46: GETAMB_C is the accessor whose value is `cSixteenth` of the slot's `amb`. -/
theorem ambientCelsiusResult : Obligations.AmbientCelsiusResult :=
  ⟨by decide, fun _ idx hready => exec_accessor (i := .getAmbC idx) rfl hready⟩

/-- Settles O47: GETAMB_F is the accessor whose value is `fSixteenth` of the slot's `amb`. -/
theorem ambientFahrenheitResult : Obligations.AmbientFahrenheitResult :=
  ⟨by decide, fun _ idx hready => exec_accessor (i := .getAmbF idx) rfl hready⟩

/-- Settles O48: GETFAULT is the accessor whose value is the code of the slot's `flt`; its sentinel 4 is the code of
BusError. -/
theorem faultResult : Obligations.FaultResult :=
  ⟨by decide, fun _ idx hready => exec_accessor (i := .getFault idx) rfl hready⟩

end Sys2Proof.Proofs
end

section
/-! Soft reset (spec/70_reset_and_hazards.md R122): what INIT makes of the store and of the four pin registers. -/

namespace Sys2Proof.Proofs

open Sys2Proof Sys2Proof.Machine

/-- INIT overwrites each slot without reading it. -/
theorem bodyOf_init_store (s : State) :
    (bodyOf .init s).store = List.replicate s.store.length Slot.zero := by
  simp [bodyOf, List.map_const']

/-- INIT writes the power pin's direction and its level, so nothing of the old line is left. -/
theorem bodyOf_init_pwr (s : State) :
    (bodyOf .init s).pwr = { dir := .wrote .output, lvl := .wrote .low } := by
  simp [bodyOf]

/-- INIT writes the direction of each chip-select line and then its level: together the whole line, whatever it held. -/
theorem bodyOf_init_cs (s : State) :
    (bodyOf .init s).cs =
      List.replicate s.cs.length { dir := .wrote .output, lvl := .wrote .high } := by
  simp [bodyOf, Function.comp_def, List.map_const']

/-- Settles O17: INIT is accepted whenever ready, and its body writes every slot and every line there is, which is `N` of
each. -/
theorem softResetProgramsPins : Obligations.SoftResetProgramsPins := by
  intro s ⟨hcfg, hidle⟩ ⟨hslots, hlines⟩
  refine ⟨bodyOf .init s, exec_of_ready .init hcfg hidle, ?_, bodyOf_init_pwr s, ?_⟩
  · rw [bodyOf_init_store, hslots, Slot.zero]
  · rw [bodyOf_init_cs, hlines]

end Sys2Proof.Proofs
end

section
/-! The command encoding (spec/30_encoding.md R56 to R61) as arithmetic on the command byte, and the step that runs a
command. -/

namespace Sys2Proof.Proofs

open Sys2Proof Sys2Proof.Machine Sys2Proof.Claims

theorem idxOf_eq_mod (c : Byte) : idxOf c = c.toNat % 8 := by
  simp [idxOf, BitVec.extractLsb'_toNat]

theorem encodeByte_toNat (i : Instr) :
    (encodeByte i).toNat = (opField i).toNat * 16 + i.idx % 8 := by
  have hfield : (0#1 ++ idxField i).toNat = i.idx % 8 := by
    rw [toNat_append_eq_add, idxField, BitVec.toNat_ofNat]
    simp
  calc (encodeByte i).toNat
      = (opField i).toNat * 2 ^ 4 + (0#1 ++ idxField i).toNat := toNat_append_eq_add _ _
    _ = (opField i).toNat * 16 + i.idx % 8 := by omega

/-- A row of format `I` masks off the three low bits. -/
theorem and_F8_toNat (c : Byte) : (c &&& 0xF8#8).toNat = c.toNat / 8 * 8 := by
  have hshift : c &&& 0xF8#8 = (c >>> 3) <<< 3 := by
    apply BitVec.eq_of_getLsbD_eq
    intro k hk
    interval_cases k <;> simp
  have hc := c.isLt
  simp only [hshift, BitVec.toNat_shiftLeft, BitVec.toNat_ushiftRight, Nat.shiftRight_eq_div_pow,
    Nat.shiftLeft_eq]
  omega

/-- Which number the word of a row has: the pattern itself, or the pattern and an index in the low three bits. -/
theorem selects_iff {c : Byte} {r : OpRow} (hr : r ∈ opTable) :
    selects c r = true ↔
      (r.mask = 0xFF#8 ∧ c.toNat = r.pat.toNat) ∨ (r.mask = 0xF8#8 ∧ c.toNat / 8 * 8 = r.pat.toNat) := by
  have hfixed : ∀ p : Byte, c &&& 0xFF#8 = p ↔ c.toNat = p.toNat := fun p => by
    rw [show c &&& 0xFF#8 = c from BitVec.and_allOnes, BitVec.toNat_inj]
  have hfield : ∀ p : Byte, c &&& 0xF8#8 = p ↔ c.toNat / 8 * 8 = p.toNat := fun p => by
    rw [← BitVec.toNat_inj, and_F8_toNat]
  have hmask : r.mask = 0xFF#8 ∨ r.mask = 0xF8#8 :=
    (by decide : ∀ m ∈ opTable.map (·.mask), m = 0xFF#8 ∨ m = 0xF8#8) _ (List.mem_map_of_mem hr)
  rw [selects, beq_iff_eq]
  obtain h | h := hmask
  · simp [h, hfixed]
  · simp [h, hfield]

theorem decodeByte_eq_ok {c : Byte} {i : Instr} (h : decodeByte c = .ok i) :
    ∃ r ∈ opTable, selects c r = true ∧ i = r.build (idxOf c) := by
  unfold decodeByte at h
  split at h
  · next r hr =>
    cases h
    exact ⟨r, List.mem_of_find?_eq_some hr, List.find?_some hr, rfl⟩
  · cases h

theorem decodeByte_eq_error_iff (c : Byte) :
    (∃ e, decodeByte c = .error e) ↔ ∀ r ∈ opTable, ¬ selects c r = true := by
  rw [← List.find?_eq_none]
  unfold decodeByte
  cases opTable.find? (selects c) with
  | none => simp
  | some r => simp

/-- Decoding an encoded operation, for each index the field admits. -/
theorem decodeByte_encodeByte {i : Instr} (h : i.wf) : decodeByte (encodeByte i) = .ok i := by
  cases i with
  | init | pwrOn | pwrOff | teardown | retrieve => rfl
  | getTcC idx | getTcF idx | getAmbC idx | getAmbF idx | getFault idx =>
    replace h : idx < 8 := h
    interval_cases idx <;> rfl

/-- Settles O5: an encoding is one byte, and that byte selects the operation's own row. -/
theorem decodeOfEncodeIsIdentity : Obligations.DecodeOfEncodeIsIdentity := by
  intro i rest h
  simp [encode, decode, decodeByte_encodeByte h]

/-- Every word a row selects is the encoding of the operation the row builds from it. -/
theorem encodeByte_build {c : Byte} {r : OpRow} (hr : r ∈ opTable) (h : selects c r = true) :
    (r.build (idxOf c)).wf ∧ encodeByte (r.build (idxOf c)) = c := by
  have hword := (selects_iff hr).mp h
  simp only [opTable, List.mem_cons, List.not_mem_nil, or_false] at hr
  rw [← BitVec.toNat_inj, encodeByte_toNat, idxOf_eq_mod]
  obtain rfl | rfl | rfl | rfl | rfl | rfl | rfl | rfl | rfl | rfl := hr
  all_goals
    simp only [opField, Instr.wf, Instr.idx, BitVec.toNat_ofNat, BitVec.reduceEq, true_and, false_and,
      or_false, false_or] at hword ⊢
    omega

/-- Settles O6: the operation is the one its row builds, and `encodeByte_build` gives the word back. -/
theorem encodeOfDecodeIsIdentity : Obligations.EncodeOfDecodeIsIdentity := by
  intro c i h
  obtain ⟨r, hr, hsel, rfl⟩ := decodeByte_eq_ok h
  exact encodeByte_build hr hsel

/-- A word is reserved exactly when its number is that of no row. -/
theorem reservedWord_iff_selects_none (c : Byte) :
    reservedWord c ↔ ∀ r ∈ opTable, ¬ selects c r = true := by
  have hrows : (∀ r ∈ opTable, ¬ selects c r = true) ↔ ∀ r ∈ opTable,
      ¬ ((r.mask = 0xFF#8 ∧ c.toNat = r.pat.toNat) ∨
        (r.mask = 0xF8#8 ∧ c.toNat / 8 * 8 = r.pat.toNat)) :=
    forall₂_congr fun r hr => not_congr (selects_iff hr)
  rw [hrows]
  simp only [reservedWord, opTable, List.forall_mem_cons, List.not_mem_nil, IsEmpty.forall_iff,
    implies_true, BitVec.toNat_ofNat, BitVec.reduceEq, true_and, false_and, or_false, false_or, and_true]
  omega

/-- Settles O1: the command is fetched, and its decoding is executed. -/
theorem stepRunsDecodedCommand : Obligations.StepRunsDecodedCommand := by
  intro s c rest i hidle hcmds hdecode
  simp [step, hidle, fetch_of_cons hcmds, hdecode]

/-- Settles O2: a well-formed operation's encoding is one command, which decodes to it. -/
theorem stepRunsEncodedOperation : Obligations.StepRunsEncodedOperation :=
  fun i s rest h hidle hcmds =>
    stepRunsDecodedCommand s (encodeByte i) rest i hidle hcmds (decodeByte_encodeByte h)

/-- Settles O3: the word placed is the next command of a state with no pass in progress. -/
theorem fetchWordRunsNext : Obligations.FetchWordRunsNext := by
  intro s w i h
  have hdecode : decodeByte (tableByte 8 w) = .ok i := by
    cases hd : decodeByte (tableByte 8 w) with
    | error e => simp [decodeTableWord, decode, hd] at h
    | ok i' => simpa [decodeTableWord, decode, hd] using h
  exact stepRunsDecodedCommand (s.withFetchWord 8 w) (tableByte 8 w) s.cmds i rfl rfl hdecode

/-- How many of the `n` words from `a` on are reserved. -/
def reservedFrom (a n : Nat) : Nat :=
  ((List.range' a n).filter fun k => decide (reservedWord (BitVec.ofNat 8 k))).length

theorem reservedFrom_add (a m n : Nat) :
    reservedFrom a (m + n) = reservedFrom a m + reservedFrom (a + m) n := by
  simp [reservedFrom, ← List.range'_append_1]

/-- `OP` in `0xA..0xF`: every word is reserved. -/
theorem reservedFrom_unassigned : reservedFrom 160 96 = 96 := by
  have hall : ∀ k ∈ List.range' 160 96, decide (reservedWord (BitVec.ofNat 8 k)) = true := by
    intro k hk
    rw [List.mem_range'_1] at hk
    simp only [decide_eq_true_eq, reservedWord, BitVec.toNat_ofNat]
    omega
  rw [reservedFrom, List.filter_eq_self.mpr hall, List.length_range']

/-- The three groups of spec/30_encoding.md R59: `OP` 0 to 4 with a non-zero low nibble, `OP` 5 to 9 with `Z = 1`, `OP`
`0xA` to `0xF`. -/
theorem reservedFrom_all : reservedFrom 0 256 = 211 :=
  calc reservedFrom 0 256
      = reservedFrom 0 80 + reservedFrom 80 80 + reservedFrom 160 96 := by
        rw [← reservedFrom_add, ← reservedFrom_add]
    _ = 5 * 15 + 5 * 8 + 96 := by
        rw [reservedFrom_unassigned, show reservedFrom 0 80 = 5 * 15 by decide,
          show reservedFrom 80 80 = 5 * 8 by decide]

/-- Settles O4: the reserved words are those no row selects, so the decoder answers an error and the step refuses. -/
theorem reservedWordsRefused : Obligations.ReservedWordsRefused := by
  have hreserved : ∀ c : Byte, (∃ e, decodeByte c = .error e) ↔ reservedWord c := fun c =>
    (decodeByte_eq_error_iff c).trans (reservedWord_iff_selects_none c).symm
  have hcount := reservedFrom_all
  rw [reservedFrom, ← List.range_eq_range'] at hcount
  refine ⟨hreserved, hcount, fun s c rest hidle hcmds hc => ?_⟩
  obtain ⟨e, he⟩ := (hreserved c).mpr hc
  exact ⟨e, by simp [step, hidle, fetch_of_cons hcmds, he]⟩

/-- Settles O7: the listed words are evaluated. -/
theorem commandWordsOfTheMap : Obligations.CommandWordsOfTheMap :=
  ⟨rfl, rfl, rfl, rfl, rfl, rfl, rfl, rfl, rfl, rfl⟩

/-- Settles O8: with no command there is nothing to fetch. -/
theorem idleHoldsState : Obligations.IdleHoldsState := by
  intro s hidle hcmds
  simp [step, hidle, fetch_of_nil hcmds]

end Sys2Proof.Proofs
end

section
/-! When an operation is accepted, and what each operation leaves as it was: one frame lemma per field of the state
(spec/10_state.md R22, R26; spec/40_lifecycle_and_pins.md R76). -/

namespace Sys2Proof.Proofs

open Sys2Proof Sys2Proof.Machine

/-- `csPin` names distinct pins exactly when the list of pins has no duplicates. -/
theorem csPins_nodup_iff (c : Config) :
    c.csPins.Nodup ↔ ∀ i j, i < c.n → j < c.n → csPin c i = csPin c j → i = j := by
  have hpin : ∀ i (hi : i < c.n), csPin c i = c.csPins[i]'hi := fun i hi =>
    List.getD_eq_getElem c.csPins 0 hi
  constructor
  · intro hnodup i j hi hj h
    rw [hpin i hi, hpin j hj] at h
    exact (hnodup.getElem_inj_iff).mp h
  · intro hinj
    rw [List.nodup_iff_injective_getElem]
    intro i j h
    exact Fin.ext (hinj i j i.isLt j.isLt ((hpin i i.isLt).trans (h.trans (hpin j j.isLt).symm)))

/-- Settles O11: distinct pins are the power pin outside a list of chip-select pins without duplicates; the check comes
first in every operation. -/
theorem onlyQtcDecConfigurationsRun : Obligations.OnlyQtcDecConfigurationsRun := by
  refine ⟨fun c => ?_, fun i s hc => ?_⟩
  · rw [configOk_iff, List.nodup_cons, csPins_nodup_iff]
  · rw [exec_eq_issue, issue_of_bad_config _ hc]

/-- Settles O10: BUSY is looked at before any body runs, by an operation, by a step and by `finalState`. -/
theorem hostHasNoMoveWhileBusy : Obligations.HostHasNoMoveWhileBusy := by
  intro i s hc hbusy
  exact ⟨by rw [exec_eq_issue, issue_of_busy _ hc hbusy], step_of_busy hbusy, finalState_of_busy hbusy⟩

section Frames

variable {i : Instr} (s : State)

theorem bodyOf_cfg (i : Instr) : (bodyOf i s).cfg = s.cfg := by
  cases i with
  | retrieve => exact (retrievePass_frame s).1
  | init | pwrOn | pwrOff | teardown => rfl
  | getTcC | getTcF | getAmbC | getAmbF | getFault => rfl

theorem bodyOf_cmds (i : Instr) : (bodyOf i s).cmds = s.cmds := by
  cases i with
  | retrieve =>
    obtain ⟨-, -, hcmds, -⟩ := retrievePass_frame s
    exact hcmds
  | init | pwrOn | pwrOff | teardown => rfl
  | getTcC | getTcF | getAmbC | getAmbF | getFault => rfl

theorem bodyOf_pwr_dir (hinit : i ≠ .init) : (bodyOf i s).pwr.dir = s.pwr.dir := by
  cases i with
  | init => exact absurd rfl hinit
  | retrieve =>
    obtain ⟨-, hpwr, -⟩ := retrievePass_frame s
    exact congrArg Line.dir hpwr
  | pwrOn | pwrOff | teardown => rfl
  | getTcC | getTcF | getAmbC | getAmbF | getFault => rfl

theorem bodyOf_pwr_lvl (hinit : i ≠ .init) (hon : i ≠ .pwrOn) (hoff : i ≠ .pwrOff)
    (hdown : i ≠ .teardown) : (bodyOf i s).pwr.lvl = s.pwr.lvl := by
  cases i with
  | init => exact absurd rfl hinit
  | pwrOn => exact absurd rfl hon
  | pwrOff => exact absurd rfl hoff
  | teardown => exact absurd rfl hdown
  | retrieve =>
    obtain ⟨-, hpwr, -⟩ := retrievePass_frame s
    exact congrArg Line.lvl hpwr
  | getTcC | getTcF | getAmbC | getAmbF | getFault => rfl

theorem bodyOf_cs_dir (hinit : i ≠ .init) (hdown : i ≠ .teardown) :
    (bodyOf i s).cs.map (·.dir) = s.cs.map (·.dir) := by
  cases i with
  | init => exact absurd rfl hinit
  | teardown => exact absurd rfl hdown
  | retrieve =>
    obtain ⟨-, -, -, hdir, -⟩ := retrievePass_frame s
    exact hdir
  | pwrOn | pwrOff => simp [bodyOf]
  | getTcC | getTcF | getAmbC | getAmbF | getFault => rfl

theorem bodyOf_cs_lvl (hinit : i ≠ .init) (hon : i ≠ .pwrOn) (hoff : i ≠ .pwrOff)
    (hret : i ≠ .retrieve) : (bodyOf i s).cs.map (·.lvl) = s.cs.map (·.lvl) := by
  cases i with
  | init => exact absurd rfl hinit
  | pwrOn => exact absurd rfl hon
  | pwrOff => exact absurd rfl hoff
  | retrieve => exact absurd rfl hret
  | teardown => simp [bodyOf]
  | getTcC | getTcF | getAmbC | getAmbF | getFault => rfl

/-- Only a pass touches the transient registers and takes answers. -/
theorem bodyOf_transients (hret : i ≠ .retrieve) :
    (bodyOf i s).pass = s.pass ∧ (bodyOf i s).replies = s.replies ∧ (bodyOf i s).xcount = s.xcount := by
  cases i with
  | retrieve => exact absurd rfl hret
  | init | pwrOn | pwrOff | teardown => exact ⟨rfl, rfl, rfl⟩
  | getTcC | getTcF | getAmbC | getAmbF | getFault => exact ⟨rfl, rfl, rfl⟩

/-- Every event is emitted at the end of the trace. -/
theorem bodyOf_trace (i : Instr) : ∃ es, (bodyOf i s).trace = s.trace ++ es := by
  cases i with
  | retrieve =>
    obtain ⟨-, -, -, -, htrace, -⟩ := retrievePass_frame s
    exact htrace
  | init | pwrOn | pwrOff | teardown => exact ⟨_, by simp [bodyOf]; rfl⟩
  | getTcC | getTcF | getAmbC | getAmbF | getFault => exact ⟨_, rfl⟩

end Frames

/-- Settles O52: the frame lemmas, one per register of the matrix. -/
theorem writeMatrix : Obligations.WriteMatrix := by
  intro i s t h
  obtain ⟨-, -, rfl⟩ := exec_eq_next h
  exact ⟨fun hinit hret => bodyOf_store hinit hret s, bodyOf_pwr_dir s, bodyOf_pwr_lvl s,
    bodyOf_cs_dir s, bodyOf_cs_lvl s, bodyOf_transients s, bodyOf_cmds s i⟩

/-- A relation that every operation keeps, that is reflexive and does not look at the waiting commands is kept by every
step. -/
theorem step_relates {R : State → State → Prop} (hrefl : ∀ s, R s s)
    (hcmds : ∀ s t rest, R { s with cmds := rest } t → R s t)
    (hexec : ∀ i s t, exec i s = .next t → R s t) {s t : State} (h : step s = .next t) : R s t := by
  obtain ⟨-, ⟨-, rfl⟩ | ⟨c, rest, i, -, -, hi⟩⟩ := step_eq_next h
  · exact hrefl _
  · exact hcmds s t rest (hexec i _ t hi)

/-- Settles O16: by `bodyOf_cfg`, and a step is an operation or idle. -/
theorem configurationNeverChanges : Obligations.ConfigurationNeverChanges := by
  have hexec : ∀ (i : Instr) (s t : State), exec i s = .next t → t.cfg = s.cfg := by
    intro i s t h
    obtain ⟨-, -, rfl⟩ := exec_eq_next h
    exact bodyOf_cfg s i
  exact ⟨hexec, fun s t => step_relates (R := fun s t => t.cfg = s.cfg) (fun _ => rfl) (fun _ _ _ h => h) hexec⟩

/-- Settles O53: by `bodyOf_trace`, and a step is an operation or idle. -/
theorem traceOnlyGrows : Obligations.TraceOnlyGrows := by
  have hexec : ∀ (i : Instr) (s t : State), exec i s = .next t → ∃ es, t.trace = s.trace ++ es := by
    intro i s t h
    obtain ⟨-, -, rfl⟩ := exec_eq_next h
    exact bodyOf_trace s i
  exact ⟨hexec, fun s t =>
    step_relates (R := fun s t => ∃ es, t.trace = s.trace ++ es)
      (fun s => ⟨[], (List.append_nil s.trace).symm⟩) (fun _ _ _ h => h) hexec⟩

/-- Settles O9: a ready block accepts; only a pass can make it BUSY, and it does so only where an exchange hangs. -/
theorem operationsAcceptedWhenReady : Obligations.OperationsAcceptedWhenReady := by
  rintro i s ⟨hcfg, hidle⟩
  refine ⟨bodyOf i s, exec_of_ready i hcfg hidle, fun hbusy => ?_⟩
  by_cases hret : i = .retrieve
  · subst hret
    obtain ⟨b, -, he⟩ | ⟨b, k, hk, -, hnever, -⟩ := retrievePass_cases s
    · rw [bodyOf, he] at hbusy
      cases hbusy
    · exact ⟨rfl, k, hk, hnever⟩
  · obtain ⟨hpass, -, -⟩ := bodyOf_transients s hret
    rw [State.busy, hpass] at hbusy
    exact absurd hbusy (Bool.eq_false_iff.mp hidle)

end Sys2Proof.Proofs
end

section
/-! CONSTRUCT and INIT (spec/10_state.md R28, R29; spec/40_lifecycle_and_pins.md R65, R66), and what the accessors read
after them; the pin operations issued twice (R70). -/

namespace Sys2Proof.Proofs

open Sys2Proof Sys2Proof.Machine Sys2Proof.Claims

/-- Settles O13: the fields of the constructed state. -/
theorem constructWritesNoPin : Obligations.ConstructWritesNoPin :=
  fun _ => ⟨rfl, rfl, rfl, rfl, rfl⟩

/-- A state with no pass and no line LOW meets the clauses of the invariant about the pass. -/
theorem inv_of_idle {s : State} (hcfg : configOk s.cfg = true) (hshape : shaped s)
    (hrange : ∀ c ∈ s.store, slotInRange c) (hpwr : s.pwr.dir ≠ .wrote .input)
    (hpass : s.pass = none) (hlines : ∀ i, csLvlAt s i ≠ .wrote .low) : s.Inv := by
  refine ⟨hcfg, hshape, hrange, hpwr, fun i _ => ?_, ?_⟩
  · simp [hpass, hlines i]
  · simp [hpass]

theorem slotInRange_zero : slotInRange Slot.zero := by decide

theorem inv_construct {c : Config} (hc : configOk c = true) : (State.construct c).Inv := by
  refine inv_of_idle hc ⟨List.length_replicate, List.length_replicate⟩ ?_ nofun rfl fun i => ?_
  · intro slot hslot
    rw [List.eq_of_mem_replicate hslot]
    exact slotInRange_zero
  · have hline : (List.replicate c.n Line.unwritten).getD i Line.unwritten = Line.unwritten :=
      (List.getD_eq_getElem?_getD ..).trans (List.getElem?_getD_replicate_default_eq ..)
    exact fun h => nomatch (congrArg Line.lvl hline).symm.trans h

/-- Settles O14: `inv_construct`; the board is a QTC-DEC. -/
theorem resetMeetsTheInvariant : Obligations.ResetMeetsTheInvariant :=
  ⟨inv_construct (by decide), fun _ => inv_construct⟩

/-- Settles O18: the fields INIT writes are those of `bodyOf_init_store`, `bodyOf_init_pwr` and `bodyOf_init_cs`. -/
theorem initWholeEffect : Obligations.InitWholeEffect := by
  rintro s ⟨hcfg, hidle⟩ ⟨hslots, hlines⟩
  calc exec .init s
      = .next (bodyOf .init s) := exec_of_ready .init hcfg hidle
    _ = .next
          { s with
            store := (bodyOf .init s).store
            pwr := (bodyOf .init s).pwr
            cs := (bodyOf .init s).cs
            trace := (bodyOf .init s).trace } := rfl
    _ = _ := by rw [bodyOf_init_store, bodyOf_init_pwr, bodyOf_init_cs, hslots, hlines]; rfl

/-- An accessor returns, on an index of 1 to `N`, the value of the slot there. -/
theorem accessor_returns {i : Instr} {idx : Nat} {s : State} {c : Slot} {v : Res}
    (hi : accessorIdx i = some idx) (hready : Ready s) (hfirst : 1 ≤ idx) (hlast : idx ≤ s.cfg.n)
    (hslot : s.store[idx - 1]? = some c) (hv : accessorValue i s.cfg c = v) :
    ∃ t, exec i s = .next t ∧ lastResult t = some v :=
  ⟨_, (exec_accessor hi hready).1 c hfirst hlast hslot, hv ▸ lastResult_emit_ret [] _ s⟩

theorem conversions_zero (m : DivRound) :
    cQuarter m 0 = 0 ∧ fQuarter m 0 = 32 ∧ cSixteenth m 0 = 0 ∧ fSixteenth m 0 = 32 := by
  cases m <;> decide

/-- Settles O12: INIT is O17's; the accessors read the zero slot, whose conversions are `conversions_zero`. -/
theorem resetClearsChannelStore : Obligations.ResetClearsChannelStore := by
  refine ⟨fun _ => rfl, fun s hready hshape => ?_, fun s idx hready hstore hfirst hlast => ?_⟩
  · obtain ⟨t, hnext, hstore, -⟩ := softResetProgramsPins s hready hshape
    exact ⟨t, hnext, hstore⟩
  · have hslot : s.store[idx - 1]? = some Slot.zero := by
      rw [hstore, List.getElem?_replicate_of_lt (by omega)]
      rfl
    obtain ⟨hcq, hfq, hcs, hfs⟩ := conversions_zero s.cfg.divRound
    refine ⟨accessor_returns rfl hready hfirst hlast hslot ?_,
      accessor_returns rfl hready hfirst hlast hslot ?_,
      accessor_returns rfl hready hfirst hlast hslot ?_,
      accessor_returns rfl hready hfirst hlast hslot ?_,
      accessor_returns rfl hready hfirst hlast hslot rfl⟩
    · exact congrArg degrees hcq
    · exact congrArg degrees hfq
    · exact congrArg degrees hcs
    · exact congrArg degrees hfs

/-- The events of the four pin operations, which the configuration alone determines. -/
def pinEvents (c : Config) : Instr → List Event
  | .init => .pinDir c.pwrPin .output :: c.csPins.map (fun p => .pinDir p .output)
      ++ c.csPins.map (fun p => .pinLevel p .high) ++ [.pinLevel c.pwrPin .low]
  | .pwrOn => c.csPins.map (fun p => .pinLevel p .high) ++ [.pinLevel c.pwrPin .high]
  | .pwrOff => .pinLevel c.pwrPin .low :: c.csPins.map (fun p => .pinLevel p .high)
  | .teardown => .pinLevel c.pwrPin .low :: c.csPins.map (fun p => .pinDir p .input)
  | _ => []

section Pins

variable {i : Instr} (hi : i = .init ∨ i = .pwrOn ∨ i = .pwrOff ∨ i = .teardown) (s : State)
include hi

theorem bodyOf_trace_of_pin : (bodyOf i s).trace = s.trace ++ pinEvents s.cfg i := by
  obtain rfl | rfl | rfl | rfl := hi
  all_goals simp [bodyOf, pinEvents]

/-- A pin operation writes constants, so its second run finds every register as it leaves it. -/
theorem bodyOf_twice_of_pin : bodyOf i (bodyOf i s) =
    { bodyOf i s with trace := (bodyOf i (bodyOf i s)).trace } := by
  obtain rfl | rfl | rfl | rfl := hi
  all_goals simp [bodyOf, clearStore, pwrLevel, pwrDir, allCsLevel, allCsDir, emit]

end Pins

/-- Settles O23: the second run writes what is there, and emits the events of the same configuration. -/
theorem pinOperationsAreIdempotent : Obligations.PinOperationsAreIdempotent := by
  rintro i s hi ⟨hcfg, hidle⟩
  have hret : i ≠ .retrieve := by rintro rfl; simp at hi
  have hpass : (bodyOf i s).pass = s.pass := (bodyOf_transients s hret).1
  refine ⟨bodyOf i s, bodyOf i (bodyOf i s), pinEvents s.cfg i, exec_of_ready i hcfg hidle,
    exec_of_ready i (by rwa [bodyOf_cfg]) (by rwa [State.busy, hpass]), bodyOf_trace_of_pin hi s, ?_⟩
  have htrace := bodyOf_trace_of_pin hi (bodyOf i s)
  rw [bodyOf_cfg] at htrace
  rw [← htrace]
  exact bodyOf_twice_of_pin hi s

end Sys2Proof.Proofs
end

section
/-! The chip-select lines (spec/20_memory.md R35, R44) and the invariant of the block (spec/10_state.md R16, R20,
R23, R24): every operation, and so every step, keeps it. -/

namespace Sys2Proof.Proofs

open Sys2Proof Sys2Proof.Machine Sys2Proof.Claims

/-- No chip is selected. -/
def NoLineLow (s : State) : Prop := ∀ i, csLvlAt s i ≠ .wrote .low

/-- The chip of slot `k` is selected and no other. -/
def OnlyLineLow (k : Nat) (s : State) : Prop := ∀ i, csLvlAt s i = .wrote .low ↔ i = k

theorem csLvlAt_eq_getD_map (s : State) (i : Nat) :
    csLvlAt s i = (s.cs.map (·.lvl)).getD i .unwritten := by
  simp only [csLvlAt, List.getD_eq_getElem?_getD, List.getElem?_map]
  cases s.cs[i]? with
  | none => rfl
  | some c => rfl

theorem NoLineLow.of_lvl_eq {s t : State} (h : NoLineLow s)
    (hlvl : t.cs.map (·.lvl) = s.cs.map (·.lvl)) : NoLineLow t := fun i => by
  rw [csLvlAt_eq_getD_map, hlvl, ← csLvlAt_eq_getD_map]
  exact h i

/-- Every line HIGH. -/
theorem noLineLow_of_map_high {t : State} {cs : List Line}
    (hcs : t.cs = cs.map fun c => { c with lvl := .wrote .high }) : NoLineLow t := fun i => by
  rw [csLvlAt, hcs, List.getD_eq_getElem?_getD, List.getElem?_map]
  cases cs[i]? with
  | none => exact nofun
  | some c => exact nofun

section OneLineWritten

variable {s t : State} {k : Nat} (hk : k < s.cs.length) (hs : NoLineLow s)
include hk hs

theorem noLineLow_of_modify_high
    (hcs : t.cs = s.cs.modify k fun c => { c with lvl := .wrote .high }) : NoLineLow t := fun i => by
  rw [csLvlAt, hcs, getD_modify_lvl hk]
  split
  · exact nofun
  · exact hs i

theorem onlyLineLow_of_modify_low
    (hcs : t.cs = s.cs.modify k fun c => { c with lvl := .wrote .low }) : OnlyLineLow k t := fun i => by
  rw [csLvlAt, hcs, getD_modify_lvl hk]
  by_cases hik : i = k
  · simp [hik]
  · rw [if_neg hik]
    exact iff_of_false (hs i) hik

end OneLineWritten

/-- A channel step with no chip selected: it ends so, or it is blocked with its own chip selected. -/
theorem passChannel_lines {p : Pass} {s : State} (hfirst : 1 ≤ p.ch) (hlast : p.ch ≤ s.cs.length)
    (hs : NoLineLow s) :
    (∃ p' t, passChannel p s = .done p' t ∧ t.cs.length = s.cs.length ∧ NoLineLow t) ∨
      ∃ t, passChannel p s = .blocked t ∧ t.pass = some p ∧ OnlyLineLow (p.ch - 1) t := by
  have hline : p.ch - 1 < s.cs.length := by omega
  obtain ⟨b, hanswers⟩ | ⟨b, k, hk, hanswers, hnever⟩ := answers_or_never s 4
  · exact .inl ⟨_, _, passChannel_of_answers hanswers, List.length_modify ..,
      noLineLow_of_modify_high hline hs rfl⟩
  · exact .inr ⟨_, passChannel_of_never hk hanswers hnever, rfl, onlyLineLow_of_modify_low hline hs rfl⟩

/-- The same of the channel steps of any list. -/
theorem passLoop_lines {chs : List Nat} {p : Pass} {s : State}
    (hchs : ∀ ch ∈ chs, 1 ≤ ch ∧ ch ≤ s.cs.length) (hs : NoLineLow s) :
    (∃ p' t, passLoop chs p s = .done p' t ∧ NoLineLow t) ∨
      ∃ t q, passLoop chs p s = .blocked t ∧ t.pass = some q ∧ q.ch ∈ chs ∧ OnlyLineLow (q.ch - 1) t := by
  induction chs generalizing p s with
  | nil => exact .inl ⟨p, s, rfl, hs⟩
  | cons ch rest ih =>
    obtain ⟨⟨hfirst, hlast⟩, hrest⟩ := List.forall_mem_cons.mp hchs
    obtain ⟨p', t, hdone, hlen, ht⟩ | ⟨t, hblocked, hpass, hlow⟩ :=
      passChannel_lines (p := { p with ch := ch }) hfirst hlast hs
    · rw [passLoop, hdone, Sync.andThen_done]
      obtain hd | ⟨u, q, hb, hq, hmem, hlow⟩ := ih (p := p') (hlen ▸ hrest) ht
      · exact .inl hd
      · exact .inr ⟨u, q, hb, hq, List.mem_cons_of_mem ch hmem, hlow⟩
    · rw [passLoop, hblocked, Sync.andThen_blocked]
      exact .inr ⟨t, _, rfl, hpass, List.mem_cons_self, hlow⟩

/-- A whole pass with no chip selected ends so, or stands in a channel of 1 to `N` with that chip selected. -/
theorem retrievePass_lines {s : State} (hlen : s.cs.length = s.cfg.n) (hs : NoLineLow s) :
    ((retrievePass s).pass = none ∧ NoLineLow (retrievePass s)) ∨
      ∃ q, (retrievePass s).pass = some q ∧ 1 ≤ q.ch ∧ q.ch ≤ s.cfg.n ∧
        OnlyLineLow (q.ch - 1) (retrievePass s) := by
  have hchs : ∀ ch ∈ List.range' 1 s.cfg.n, 1 ≤ ch ∧ ch ≤ s.cs.length := fun ch hch => by
    rw [List.mem_range'_1] at hch
    omega
  obtain ⟨p', t, hdone, ht⟩ | ⟨t, q, hblocked, hpass, hmem, hlow⟩ :=
    passLoop_lines (p := startPass s) hchs hs
  · simp only [retrievePass, hdone]
    exact .inl ⟨rfl, ht⟩
  · simp only [retrievePass, hblocked]
    obtain ⟨hfirst, hlast⟩ := hchs _ hmem
    exact .inr ⟨q, hpass, hfirst, hlen ▸ hlast, hlow⟩

/-- No operation but a pass selects a chip. -/
theorem bodyOf_noLineLow {i : Instr} {s : State} (hret : i ≠ .retrieve) (hs : NoLineLow s) :
    NoLineLow (bodyOf i s) := by
  by_cases hhigh : i = .init ∨ i = .pwrOn ∨ i = .pwrOff
  · obtain rfl | rfl | rfl := hhigh
    all_goals exact noLineLow_of_map_high rfl
  · push Not at hhigh
    obtain ⟨hinit, hon, hoff⟩ := hhigh
    exact hs.of_lvl_eq (bodyOf_cs_lvl s hinit hon hoff hret)

theorem bodyOf_shaped {s : State} (i : Instr) (hs : shaped s) : shaped (bodyOf i s) := by
  suffices h : (bodyOf i s).store.length = s.store.length ∧ (bodyOf i s).cs.length = s.cs.length by
    rw [shaped, h.1, h.2, bodyOf_cfg]
    exact hs
  cases i with
  | retrieve =>
    obtain ⟨-, -, -, -, -, hstore, hcs⟩ := retrievePass_frame s
    exact ⟨hstore, hcs⟩
  | init | pwrOn | pwrOff | teardown => simp [bodyOf]
  | getTcC | getTcF | getAmbC | getAmbF | getFault => exact ⟨rfl, rfl⟩

/-- DECODE stores fields of 14 and 12 bits, or keeps the temperatures. -/
theorem slotInRange_decodeSlot (w : Word) {old : Slot} (h : slotInRange old) :
    slotInRange (decodeSlot w old) := by
  obtain ⟨-, hdecoded⟩ | ⟨-, hkept⟩ := decodeSlot_cases w old
  · obtain ⟨-, htclo, htchi, -⟩ := thermocoupleRawValue.1 w
    obtain ⟨-, hamblo, hambhi, -⟩ := ambientRawValue.1 w
    rw [hdecoded]
    exact ⟨htclo, htchi, hamblo, hambhi⟩
  · rw [hkept]
    exact h

theorem bodyOf_slotInRange {s : State} (i : Instr) (hs : ∀ c ∈ s.store, slotInRange c) :
    ∀ c ∈ (bodyOf i s).store, slotInRange c := by
  by_cases hinit : i = .init
  · intro c hc
    rw [hinit, bodyOf_init_store] at hc
    rw [List.eq_of_mem_replicate hc]
    exact slotInRange_zero
  by_cases hret : i = .retrieve
  · obtain ⟨b, m, -, -, hstore⟩ := retrievePass_store s
    intro c hc
    rw [hret, bodyOf, hstore] at hc
    obtain ⟨k, hk, rfl⟩ := List.mem_mapIdx.mp hc
    split
    · exact slotInRange_decodeSlot _ (hs _ (List.getElem_mem hk))
    · exact hs _ (List.getElem_mem hk)
  · rwa [bodyOf_store hinit hret]

theorem bodyOf_pwr_ne_input {s : State} (i : Instr) (hs : s.pwr.dir ≠ .wrote .input) :
    (bodyOf i s).pwr.dir ≠ .wrote .input := by
  by_cases hinit : i = .init
  · rw [hinit, bodyOf_init_pwr]
    exact nofun
  · rwa [bodyOf_pwr_dir s hinit]

/-- Outside a pass the invariant leaves no line LOW: of the `N` lines by its own clause, and there are no others. -/
theorem noLineLow_of_inv {s : State} (h : s.Inv) (hidle : s.busy = false) : NoLineLow s := by
  obtain ⟨-, ⟨-, hlen⟩, -, -, hlines, -⟩ := h
  intro i hlow
  by_cases hi : i < s.cfg.n
  · have hpass := (hlines i hi).mp hlow
    rw [(busy_eq_false_iff s).mp hidle] at hpass
    cases hpass
  · rw [csLvlAt, List.getD_eq_default _ _ (by omega)] at hlow
    cases hlow

/-- An accepted operation keeps the invariant. -/
theorem bodyOf_inv {s : State} (i : Instr) (h : s.Inv) (hidle : s.busy = false) : (bodyOf i s).Inv := by
  have hs := noLineLow_of_inv h hidle
  obtain ⟨hcfg, hshape, hrange, hpwr, -, -⟩ := h
  have hcfg' : configOk (bodyOf i s).cfg = true := by rwa [bodyOf_cfg]
  have hshape' := bodyOf_shaped i hshape
  have hrange' := bodyOf_slotInRange i hrange
  have hpwr' := bodyOf_pwr_ne_input i hpwr
  by_cases hret : i = .retrieve
  · subst hret
    obtain ⟨hpass, hlow⟩ | ⟨q, hpass, hfirst, hlast, hlow⟩ := retrievePass_lines hshape.2 hs
    · exact inv_of_idle hcfg' hshape' hrange' hpwr' hpass hlow
    · refine ⟨hcfg', hshape', hrange', hpwr', fun k _ => ?_, ?_⟩
      · rw [bodyOf, hlow k, hpass, Option.map_some, Option.some_inj]
        omega
      · rw [bodyOf_cfg, bodyOf, hpass]
        simp [hfirst, hlast]
  · obtain ⟨hpass, -, -⟩ := bodyOf_transients s hret
    exact inv_of_idle hcfg' hshape' hrange' hpwr' (hpass.trans ((busy_eq_false_iff s).mp hidle))
      (bodyOf_noLineLow hret hs)

/-- Settles O15: an idle step keeps the state, any other runs one accepted operation (`bodyOf_inv`). -/
theorem stepKeepsTheInvariant : Obligations.StepKeepsTheInvariant := by
  intro s t h hstep
  obtain ⟨hidle, ⟨-, rfl⟩ | ⟨c, rest, i, -, -, hexec⟩⟩ := step_eq_next hstep
  · exact h
  · obtain ⟨-, -, rfl⟩ := exec_eq_next hexec
    have htaken : State.Inv { s with cmds := rest } := h
    exact bodyOf_inv i htaken hidle

/-- Settles O54: the invariant after the step says which line is LOW; of a list of channels it is `passLoop_lines`. -/
theorem atMostOneChipSelected : Obligations.AtMostOneChipSelected := by
  refine ⟨fun s t h hstep => ?_, fun chs p s hchs hs => ?_⟩
  · have ht := stepKeepsTheInvariant s t h hstep
    have hnone := noLineLow_of_inv ht
    obtain ⟨-, -, -, -, hlines, -⟩ := ht
    refine ⟨fun i j hi hj hlowi hlowj => ?_, fun i _ hlow => ?_⟩
    · have hij := ((hlines i hi).mp hlowi).symm.trans ((hlines j hj).mp hlowj)
      exact Nat.succ.inj (Option.some.inj hij)
    · exact Bool.of_not_eq_false fun hidle => hnone hidle i hlow
  · obtain ⟨p₁, t₁, hdone, hnone⟩ | ⟨t₁, q, hblocked, hpass, hmem, hlow⟩ :=
      passLoop_lines (p := p) hchs hs
    · rw [hdone]
      refine ⟨fun p' t h => ?_, nofun⟩
      cases h
      exact hnone
    · rw [hblocked]
      refine ⟨nofun, fun t h => ?_⟩
      cases h
      exact ⟨q, hpass, hmem, hlow⟩

end Sys2Proof.Proofs
end

section
/-! The laws of the division (spec/42_accessors_and_conversion.md R90) and the ranges of the conversions
(R102 (c), (d)). -/

namespace Sys2Proof.Proofs

open Sys2Proof Sys2Proof.Machine

theorem sdiv_trunc_neg (a d : Int) : sdiv .trunc (-a) d = -sdiv .trunc a d := by
  rw [sdiv_trunc_eq_tdiv, sdiv_trunc_eq_tdiv, Int.neg_tdiv]

/-- A division that truncates toward zero gives 0 for an `a` smaller than `d` in magnitude. -/
theorem sdiv_trunc_eq_zero {a d : Int} (hlo : -d < a) (hhi : a < d) : sdiv .trunc a d = 0 := by
  by_cases ha : 0 ≤ a
  · rw [sdiv_trunc_eq_tdiv, Int.tdiv_eq_zero_of_lt ha hhi]
  · have hneg : sdiv .trunc (-a) d = 0 := by
      rw [sdiv_trunc_eq_tdiv, Int.tdiv_eq_zero_of_lt (by omega) (by omega)]
    rwa [sdiv_trunc_neg, neg_eq_zero] at hneg

theorem tmod_nonpos {a : Int} (d : Int) (ha : a ≤ 0) : Int.tmod a d ≤ 0 := by
  have h := Int.tmod_nonneg (a := -a) d (by omega)
  rw [Int.neg_tmod] at h
  omega

/-- Settles O39: the two roundings are the library's divisions, whose remainders are `Int.tmod`. -/
theorem divisionRounding : Obligations.DivisionRounding := by
  intro a d hd
  have hrem : a - d * sdiv .trunc a d = Int.tmod a d := by rw [sdiv_trunc_eq_tdiv, Int.tmod_def]
  rw [hrem]
  refine ⟨sdiv_trunc_eq_tdiv a d, sdiv_floor_eq_fdiv a hd.le, sdiv_trunc_neg a d,
    fun ha => ⟨Int.tmod_nonneg d ha, Int.tmod_lt_of_pos a hd⟩,
    fun ha => ⟨Int.lt_tmod_of_pos a hd, tmod_nonpos d ha⟩, sdiv_trunc_eq_zero, ?_⟩
  rintro (ha | hdvd)
  · rw [sdiv_trunc_of_nonneg d ha, sdiv_floor]
  · rw [sdiv_trunc_eq_tdiv, Int.tdiv_eq_ediv_of_dvd hdvd, sdiv_floor]

/-- Two truncating divisions are one: of a non-negative number by `Int.ediv_ediv`, of a negative one by oddness. -/
theorem sdiv_trunc_sdiv_trunc (p : Int) {d : Int} (e : Int) (hd : 0 ≤ d) :
    sdiv .trunc (sdiv .trunc p d) e = sdiv .trunc p (d * e) := by
  have hnonneg : ∀ q : Int, 0 ≤ q → sdiv .trunc (sdiv .trunc q d) e = sdiv .trunc q (d * e) := by
    intro q hq
    rw [sdiv_trunc_of_nonneg d hq, sdiv_trunc_of_nonneg e (Int.ediv_nonneg hq hd),
      sdiv_trunc_of_nonneg _ hq, Int.ediv_ediv_of_nonneg hd]
  by_cases hp : 0 ≤ p
  · exact hnonneg p hp
  · have h := hnonneg (-p) (by omega)
    rwa [sdiv_trunc_neg, sdiv_trunc_neg, sdiv_trunc_neg, neg_inj] at h

/-- Settles O43: by `sdiv_trunc_sdiv_trunc`. -/
theorem nestedDivisionsCollapse : Obligations.NestedDivisionsCollapse :=
  fun p => ⟨sdiv_trunc_sdiv_trunc p 4 (by decide), sdiv_trunc_sdiv_trunc p 16 (by decide)⟩

section Monotone

variable (m : DivRound) {q r : Int}

theorem sdiv_mono {d : Int} (hd : 0 < d) (h : q ≤ r) : sdiv m q d ≤ sdiv m r d := by
  cases m with
  | trunc =>
    rw [sdiv_trunc_eq_tdiv, sdiv_trunc_eq_tdiv]
    exact Int.tdiv_le_tdiv hd h
  | floor => exact Int.ediv_le_ediv hd h

theorem cQuarter_mono (h : q ≤ r) : cQuarter m q ≤ cQuarter m r := sdiv_mono m (by decide) h

theorem cSixteenth_mono (h : q ≤ r) : cSixteenth m q ≤ cSixteenth m r := sdiv_mono m (by decide) h

theorem fQuarter_mono (h : q ≤ r) : fQuarter m q ≤ fQuarter m r := by
  have hinner : sdiv m (q * 9) 5 ≤ sdiv m (r * 9) 5 := sdiv_mono m (by decide) (by omega)
  exact Int.add_le_add_right (sdiv_mono m (by decide) hinner) 32

theorem fSixteenth_mono (h : q ≤ r) : fSixteenth m q ≤ fSixteenth m r := by
  have hinner : sdiv m (q * 9) 5 ≤ sdiv m (r * 9) 5 := sdiv_mono m (by decide) (by omega)
  exact Int.add_le_add_right (sdiv_mono m (by decide) hinner) 32

end Monotone

theorem forall_divRound {P : DivRound → Prop} : (∀ m, P m) ↔ P .trunc ∧ P .floor := by
  refine ⟨fun h => ⟨h .trunc, h .floor⟩, fun ⟨htrunc, hfloor⟩ m => ?_⟩
  cases m with
  | trunc => exact htrunc
  | floor => exact hfloor

/-- A monotone conversion whose values at the ends of a range fit 16 bits survives the result register on the range. -/
theorem degrees_toInt_of_mono {f : DivRound → Int → Int} {lo hi r : Int}
    (hmono : ∀ (m : DivRound) {q r : Int}, q ≤ r → f m q ≤ f m r)
    (hends : ∀ m, -32768 ≤ f m lo ∧ f m hi < 32768) (hlo : lo ≤ r) (hhi : r ≤ hi) (m : DivRound) :
    (degrees (f m r)).toInt = f m r :=
  degrees_toInt ((hends m).1.trans (hmono m hlo)) ((hmono m hhi).trans_lt (hends m).2)

/-- Settles O42: each conversion is monotone, so its bounds are its values at the ends of the range; those fit 16 bits. -/
theorem resultsFitSixteenBits : Obligations.ResultsFitSixteenBits := by
  refine ⟨fun r hlo hhi => ?_, fun r hlo hhi => ?_⟩
  · have hcfits := degrees_toInt_of_mono (f := cQuarter) cQuarter_mono
      (forall_divRound.mpr (by decide)) hlo hhi
    have hffits := degrees_toInt_of_mono (f := fQuarter) fQuarter_mono
      (forall_divRound.mpr (by decide)) hlo hhi
    exact ⟨cQuarter_mono .trunc hlo, cQuarter_mono .trunc hhi, fQuarter_mono .trunc hlo,
      fQuarter_mono .trunc hhi, cQuarter_mono .floor hlo, cQuarter_mono .floor hhi,
      fQuarter_mono .floor hlo, fQuarter_mono .floor hhi, fun m => ⟨hcfits m, hffits m⟩⟩
  · have hcfits := degrees_toInt_of_mono (f := cSixteenth) cSixteenth_mono
      (forall_divRound.mpr (by decide)) hlo hhi
    have hffits := degrees_toInt_of_mono (f := fSixteenth) fSixteenth_mono
      (forall_divRound.mpr (by decide)) hlo hhi
    exact ⟨cSixteenth_mono .trunc hlo, cSixteenth_mono .trunc hhi, fSixteenth_mono .trunc hlo,
      fSixteenth_mono .trunc hhi, cSixteenth_mono .floor hlo, cSixteenth_mono .floor hhi,
      fSixteenth_mono .floor hlo, fSixteenth_mono .floor hhi, fun m => ⟨hcfits m, hffits m⟩⟩

end Sys2Proof.Proofs
end

section
/-! The classification and its codes (spec/30_encoding.md R50, R54), and the fields of the word as independent
(spec/41_retrieve_and_decode.md R82). -/

namespace Sys2Proof.Proofs

open Sys2Proof Sys2Proof.Machine

/-- Settles O28: the flags are the binary digits of the low three bits, and the last flag set wins. -/
theorem faultClassPriority : Obligations.FaultClassPriority := by
  intro w
  obtain ⟨h0, h1, h2⟩ := flagBits w
  simp only [faultClass, h0, h1, h2, decide_eq_true_eq]
  refine ⟨fun h => ?_, fun h => ?_, fun h => ?_, fun h => ?_⟩
  · rw [if_neg (by omega), if_neg (by omega), if_neg (by omega)]
  · rw [if_neg (by omega), if_neg (by omega), if_pos (by omega)]
  · rw [if_neg (by omega), if_pos (by omega)]
  · rw [if_pos (by omega)]

/-- The classification a code of spec/30_encoding.md R54 stands for. -/
def faultOfCode (v : Res) : Option FaultClass :=
  [FaultClass.none, .shortToSupply, .shortToGround, .disconnected, .busError][v.toNat]?

theorem faultOfCode_faultCode (f : FaultClass) : faultOfCode (faultCode f) = some f := by
  cases f <;> rfl

/-- Settles O49: the code can be read back, so no two classifications share one. -/
theorem faultCodesAreTheListed : Obligations.FaultCodesAreTheListed := by
  refine ⟨rfl, rfl, rfl, rfl, rfl, fun f g h => Option.some.inj ?_⟩
  rw [← faultOfCode_faultCode f, h, faultOfCode_faultCode]

/-- The flag bits that alone give a classification. -/
def flagsFor (f : FaultClass) : BitVec 3 :=
  match f with
  | .none => 0#3
  | .disconnected => 1#3
  | .shortToGround => 2#3
  | .shortToSupply => 4#3
  | .busError => 0#3

/-- A word with the given fields. Its bits 17 and 16 are 0 and 1, so that it is no bus error. -/
def wordWith (tc : BitVec 14) (amb : BitVec 12) (flags : BitVec 3) : Word :=
  tc ++ (0b01#2 ++ (amb ++ (0#1 ++ flags)))

section WordWith

variable (tc : BitVec 14) (amb : BitVec 12) (flags : BitVec 3)

theorem wordWith_toNat :
    (wordWith tc amb flags).toNat = tc.toNat * 2 ^ 18 + 2 ^ 16 + amb.toNat * 2 ^ 4 + flags.toNat := by
  have h : (wordWith tc amb flags).toNat = (tc ++ (0b01#2 ++ (amb ++ (0#1 ++ flags)))).toNat := rfl
  simp only [h, toNat_append_eq_add, BitVec.toNat_ofNat]
  omega

theorem tcField_wordWith : tcField (wordWith tc amb flags) = tc := by
  rw [← BitVec.toNat_inj, tcField_toNat, wordWith_toNat]
  omega

theorem ambField_wordWith : ambField (wordWith tc amb flags) = amb := by
  rw [← BitVec.toNat_inj, ambField_toNat, wordWith_toNat]
  omega

theorem flags_wordWith : (wordWith tc amb flags).toNat % 8 = flags.toNat := by
  rw [wordWith_toNat]
  omega

theorem isBusError_wordWith : isBusError (wordWith tc amb flags) = false := by
  rw [Bool.eq_false_iff, Ne, isBusError_iff, ← BitVec.toNat_inj, ← BitVec.toNat_inj, wordWith_toNat]
  simp only [BitVec.toNat_ofNat]
  omega

end WordWith

theorem faultClass_ne_busError (w : Word) : faultClass w ≠ .busError := by
  obtain ⟨h0, h1, h23, h4⟩ := faultClassPriority w
  obtain h | h | h | h : w.toNat % 8 = 0 ∨ w.toNat % 8 = 1 ∨ (w.toNat % 8 = 2 ∨ w.toNat % 8 = 3) ∨
    4 ≤ w.toNat % 8 := by omega
  · simp [h0 h]
  · simp [h1 h]
  · simp [h23 h]
  · simp [h4 h]

theorem faultClass_congr {v w : Word} (h : v.toNat % 8 = w.toNat % 8) : faultClass v = faultClass w := by
  obtain ⟨hv0, hv1, hv2⟩ := flagBits v
  obtain ⟨hw0, hw1, hw2⟩ := flagBits w
  have h0 : v.getLsbD 0 = w.getLsbD 0 := by rw [hv0, hw0, decide_eq_decide]; omega
  have h1 : v.getLsbD 1 = w.getLsbD 1 := by rw [hv1, hw1, decide_eq_decide]; omega
  have h2 : v.getLsbD 2 = w.getLsbD 2 := by rw [hv2, hw2, decide_eq_decide]; omega
  simp only [faultClass, h0, h1, h2]

theorem faultClass_flagsFor {w : Word} {f : FaultClass} (hf : f ≠ .busError)
    (h : w.toNat % 8 = (flagsFor f).toNat) : faultClass w = f := by
  obtain ⟨h0, h1, h23, h4⟩ := faultClassPriority w
  cases f with
  | none => exact h0 h
  | disconnected => exact h1 h
  | shortToGround => exact h23 (.inl h)
  | shortToSupply => exact h4 h.ge
  | busError => exact absurd rfl hf

/-- Settles O29: the raw values are read from their own fields; `wordWith` has any fields one asks for. -/
theorem fieldsAreIndependentAndFull : Obligations.FieldsAreIndependentAndFull := by
  refine ⟨fun v w h => ?_, fun v w h => ?_, fun v w => faultClass_congr, faultClass_ne_busError,
    fun a b f halo hahi hblo hbhi hf => ?_⟩
  · have hfield : tcField v = tcField w := by
      rw [← BitVec.toNat_inj, tcField_toNat, tcField_toNat, h]
    rw [tcRaw, hfield, tcRaw]
  · have hfield : ambField v = ambField w := by
      rw [← BitVec.toNat_inj, ambField_toNat, ambField_toNat, h]
    rw [ambRaw, hfield, ambRaw]
  · refine ⟨wordWith (BitVec.ofInt 14 a) (BitVec.ofInt 12 b) (flagsFor f), isBusError_wordWith .., ?_, ?_,
      faultClass_flagsFor hf (flags_wordWith ..)⟩
    · rw [tcRaw_toInt_eq, tcField_wordWith, BitVec.toInt_ofInt]
      exact Int.bmod_eq_of_le (by omega) (by omega)
    · rw [ambRaw_toInt_eq, ambField_wordWith, BitVec.toInt_ofInt]
      exact Int.bmod_eq_of_le (by omega) (by omega)

end Sys2Proof.Proofs
end

section
/-! RETRIEVE whole (spec/41_retrieve_and_decode.md R86, R88, R89): the next state of a pass that ends and of one that
blocks, the pass as a sequence of channel steps, and passes repeated on equal bytes. -/

namespace Sys2Proof.Proofs

open Sys2Proof Sys2Proof.Machine Sys2Proof.Claims

theorem slotAfter_of_special {w : Word} (h : specialWord w) (old : Slot) :
    slotAfter w old = { old with flt := .busError } := by
  simp only [slotAfter, if_pos h]

theorem slotAfter_of_valid {w : Word} (h : ¬ specialWord w) (old : Slot) :
    slotAfter w old = { tc := tcRaw w, amb := ambRaw w, flt := faultClass w } := by
  simp only [slotAfter, if_neg h]

/-- The slot of the statements is the one DECODE makes. -/
theorem decodeSlot_eq_slotAfter (w : Word) : decodeSlot w = slotAfter w := by
  funext old
  obtain ⟨hw, h⟩ | ⟨hw, h⟩ := decodeSlot_cases w old
  · rw [h, slotAfter_of_valid hw]
  · rw [h, slotAfter_of_special hw]

/-- DECODE twice with one word is DECODE once. -/
theorem slotAfter_slotAfter (w : Word) (old : Slot) :
    slotAfter w (slotAfter w old) = slotAfter w old := by
  by_cases hw : specialWord w
  · simp only [slotAfter_of_special hw]
  · simp only [slotAfter_of_valid hw]

/-- No flag is set exactly when the low three bits are 0. -/
theorem faultClass_eq_none_iff (w : Word) : faultClass w = .none ↔ w.toNat % 8 = 0 := by
  obtain ⟨h0, h1, h23, h4⟩ := faultClassPriority w
  refine ⟨fun h => ?_, h0⟩
  by_contra hne
  obtain h' | h' | h' : w.toNat % 8 = 1 ∨ (w.toNat % 8 = 2 ∨ w.toNat % 8 = 3) ∨ 4 ≤ w.toNat % 8 := by
    omega
  · exact nomatch (h1 h').symm.trans h
  · exact nomatch (h23 h').symm.trans h
  · exact nomatch (h4 h').symm.trans h

theorem slotAfter_flt_eq_none_iff (w : Word) (old : Slot) :
    (slotAfter w old).flt = .none ↔ ¬ specialWord w ∧ w.toNat % 8 = 0 := by
  by_cases hw : specialWord w
  · simp [slotAfter_of_special hw, hw]
  · simp only [slotAfter_of_valid hw, faultClass_eq_none_iff, hw, not_false_eq_true, true_and]

/-- The store after a pass whose bytes are `b`. -/
def storeAfter (b : Nat → Byte) (store : List Slot) : List Slot :=
  store.mapIdx fun i old => slotAfter (wordOf b i) old

@[simp] theorem length_storeAfter (b : Nat → Byte) (store : List Slot) :
    (storeAfter b store).length = store.length := List.length_mapIdx

/-- The good count of a decoded store, slot by slot, is that of its words. -/
theorem goodCount_storeAfter (b : Nat → Byte) (store : List Slot) :
    goodCount (storeAfter b store) = (List.range store.length).countP
      (fun i => decide (¬ specialWord (wordOf b i) ∧ (wordOf b i).toNat % 8 = 0)) := by
  have hflags : (storeAfter b store).map (fun c => c.flt == .none) =
      (List.range store.length).map
        fun i => decide (¬ specialWord (wordOf b i) ∧ (wordOf b i).toNat % 8 = 0) := by
    apply List.ext_getElem
    · simp
    · intro i h1 h2
      simp only [storeAfter, List.getElem_map, List.getElem_mapIdx, List.getElem_range]
      rw [Bool.eq_iff_iff, beq_iff_eq, decide_eq_true_iff, slotAfter_flt_eq_none_iff]
  have hcount := congrArg (List.countP id) hflags
  rwa [List.countP_map, List.countP_map] at hcount

theorem lastResult_of_trace {t : State} {es : List Event} {v : Res} (h : t.trace = es ++ [.ret v]) :
    lastResult t = some v := by
  simp [lastResult, h]

/-- A pass that is answered, as the one update it makes. -/
theorem retrievePass_eq_of_answers {b : Nat → Byte} {s : State} (hshape : shaped s)
    (h : Answers b (4 * s.cfg.n) s) :
    retrievePass s =
      { s with
        store := storeAfter b s.store
        cs := s.cs.map fun c => { c with lvl := .wrote .high }
        pass := none
        replies := s.replies.drop (4 * s.cfg.n)
        xcount := s.xcount + 4 * s.cfg.n
        trace := s.trace ++ passEvents s.cfg b s.xcount 0 s.cfg.n ++
          [.ret (BitVec.ofNat 16 (goodCount (storeAfter b s.store)))] } := by
  obtain ⟨hslots, hlines⟩ := hshape
  have hstore : (channelsDone b 0 s.cfg.n none s).store = storeAfter b s.store := by
    simp only [channelsDone, decodeSlot_eq_slotAfter]
    exact mapIdx_range_all s.store s.cfg.n hslots fun i => slotAfter (wordOf b i)
  have hcs : (channelsDone b 0 s.cfg.n none s).cs = s.cs.map fun c => { c with lvl := .wrote .high } :=
    (mapIdx_range_all s.cs s.cfg.n hlines fun _ c => { c with lvl := .wrote .high }).trans
      (mapIdx_const s.cs _)
  rw [retrievePass_of_answers h, hstore, ← hstore, ← hcs]
  rfl

/-- Settles O33: the update is `retrievePass_eq_of_answers`, the count `goodCount_storeAfter`. -/
theorem retrieveWholePass : Obligations.RetrieveWholePass := by
  refine ⟨rfl, ?_⟩
  rintro s b ⟨hcfg, hidle⟩ hshape hanswers
  have hpass : s.pass = none := (busy_eq_false_iff s).mp hidle
  have hwords := goodCount_storeAfter b s.store
  rw [hshape.1] at hwords
  refine ⟨retrievePass s, goodCount (storeAfter b s.store), exec_of_ready .retrieve hcfg hidle, ?_⟩
  rw [retrievePass_eq_of_answers hshape hanswers]
  refine ⟨by rw [← hpass]; rfl, rfl, hwords, ?_, lastResult_of_trace rfl, rfl⟩
  calc goodCount (storeAfter b s.store)
      ≤ (storeAfter b s.store).length := List.countP_le_length
    _ = s.cfg.n := by rw [length_storeAfter, hshape.1]

/-- What an answered RETRIEVE leaves in the store and returns. -/
theorem exec_retrieve_of_answers {b : Nat → Byte} {s : State} (hready : Ready s) (hshape : shaped s)
    (h : Answers b (4 * s.cfg.n) s) :
    ∃ t, exec .retrieve s = .next t ∧ t.store = storeAfter b s.store ∧
      lastResult t = some (BitVec.ofNat 16 (goodCount (storeAfter b s.store))) := by
  refine ⟨retrievePass s, exec_of_ready .retrieve hready.1 hready.2, ?_⟩
  rw [retrievePass_eq_of_answers hshape h]
  exact ⟨rfl, lastResult_of_trace rfl⟩

theorem storeAfter_storeAfter (b : Nat → Byte) (store : List Slot) :
    storeAfter b (storeAfter b store) = storeAfter b store := by
  simp only [storeAfter, List.mapIdx_mapIdx, Function.comp_def, slotAfter_slotAfter]

/-- Valid words leave nothing of the slots before. -/
theorem storeAfter_congr {b : Nat → Byte} {st st' : List Slot} (hlen : st'.length = st.length)
    (hvalid : ∀ i < st.length, ¬ specialWord (wordOf b i)) : storeAfter b st' = storeAfter b st := by
  apply List.ext_getElem
  · simp [hlen]
  · intro i h1 h2
    have hw := hvalid i (by simpa using h2)
    simp only [storeAfter, List.getElem_mapIdx, slotAfter_of_valid hw]

/-- Settles O38: the store and the count are functions of the bytes and the store before (`exec_retrieve_of_answers`);
that function is idempotent, and constant where every word is valid. -/
theorem retrieveRepeatsOnEqualBytes : Obligations.RetrieveRepeatsOnEqualBytes := by
  constructor
  · intro s s' t b hready hshape hanswers hexec hready' hshape' hcfg hstore' hanswers'
    obtain ⟨u, hu, hustore, huresult⟩ := exec_retrieve_of_answers hready hshape hanswers
    obtain rfl : t = u := Host.Outcome.next.inj (hexec.symm.trans hu)
    rw [← hcfg] at hanswers'
    obtain ⟨t', ht', htstore, htresult⟩ := exec_retrieve_of_answers hready' hshape' hanswers'
    have hsame : storeAfter b s'.store = storeAfter b s.store := by
      rw [hstore', hustore, storeAfter_storeAfter]
    exact ⟨t', ht', by rw [htstore, hsame, hustore], by rw [htresult, hsame, huresult]⟩
  · intro s s' b hready hshape hanswers hready' hshape' hcfg hanswers' hvalid
    obtain ⟨t, ht, htstore, htresult⟩ := exec_retrieve_of_answers hready hshape hanswers
    rw [← hcfg] at hanswers'
    obtain ⟨t', ht', htstore', htresult'⟩ := exec_retrieve_of_answers hready' hshape' hanswers'
    have hsame : storeAfter b s'.store = storeAfter b s.store :=
      storeAfter_congr (by rw [hshape.1, hshape'.1, hcfg]) (by rwa [hshape.1])
    exact ⟨t, t', ht, ht', by rw [htstore, htstore', hsame], by rw [htresult, htresult', hsame]⟩

/-- The store after the first `m` channels of a pass. -/
theorem channelsDone_zero_store (b : Nat → Byte) (m : Nat) (q : Option Pass) (s : State) :
    (channelsDone b 0 m q s).store =
      s.store.mapIdx fun i old => if i < m then slotAfter (wordOf b i) old else old := by
  simp [channelsDone, decodeSlot_eq_slotAfter]

/-- Settles O37: the channels of a pass are those of 1 to `k` and then those from `k + 1` on (`passLoop_append`), and the
first `k`, answered, are `passLoop_of_answers`. -/
theorem passIsAscendingChannelSteps : Obligations.PassIsAscendingChannelSteps := by
  intro s k p hk
  constructor
  · have hsplit : List.range' 1 s.cfg.n = List.range' 1 k ++ List.range' (k + 1) (s.cfg.n - k) := by
      rw [Nat.add_comm k 1, List.range'_append_1, Nat.add_sub_cancel' hk]
    rw [hsplit, passLoop_append]
  · intro b hanswers
    refine ⟨_, _, passLoop_of_answers (k := 0) hanswers, channelsDone_zero_store .., fun hpos => ?_⟩
    have hne : k ≠ 0 := hpos.ne'
    simp [passAfter, channelsDone, hne]

/-- The lines of a pass blocked in exchange `j`: HIGH before the blocked channel, LOW in it, as before after it. -/
theorem channelsBlocked_zero_cs (b : Nat → Byte) (j : Nat) (q : Pass) (s : State) :
    (channelsBlocked b 0 j q s).cs = s.cs.mapIdx fun i c =>
      if i < j / 4 then { c with lvl := .wrote .high }
      else if i = j / 4 then { c with lvl := .wrote .low } else c := by
  apply List.ext_getElem
  · simp [channelsBlocked, channelsDone]
  · intro i h1 h2
    simp only [channelsBlocked, channelsDone, List.getElem_modify, List.getElem_mapIdx, Nat.zero_add,
      Nat.zero_le, true_and]
    obtain hlt | rfl | hgt := Nat.lt_trichotomy i (j / 4)
    · rw [if_neg hlt.ne', if_pos hlt, if_pos hlt]
    · simp
    · rw [if_neg hgt.ne, if_neg hgt.not_gt, if_neg hgt.not_gt, if_neg hgt.ne']

/-- The events of a pass blocked in exchange `j`: whole frames, then a frame cut short. -/
theorem channelsBlocked_zero_trace (b : Nat → Byte) (j : Nat) (q : Pass) (s : State) :
    (channelsBlocked b 0 j q s).trace = s.trace ++ passEvents s.cfg b s.xcount 0 (j / 4) ++
      [.pinLevel (csPin s.cfg (j / 4)) .low] ++
      (List.range (j % 4)).map fun i =>
        .exchange (Config.dummyByte (s.xcount + (4 * (j / 4) + i))) (b (4 * (j / 4) + i)) := by
  simp only [channelsBlocked, channelsDone, Nat.zero_add,
    frameEvents_take _ _ _ _ (Nat.mod_lt j (by decide : 4 > 0)), Nat.add_assoc, List.append_assoc]

/-- Settles O36: `retrievePass_of_never`, its store, lines and trace written out. -/
theorem blockedPassUpdatedEarlierChannelsOnly :
    Obligations.BlockedPassUpdatedEarlierChannelsOnly := by
  rintro s b k ⟨hcfg, hidle⟩ - hk hanswers hnever
  let p := passAfter b 0 (k / 4) (startPass s)
  let q : Pass := { p with ch := k / 4 + 1 }
  refine ⟨p.w, p.good, ?_⟩
  rw [← channelsBlocked_zero_cs b k q s, ← channelsDone_zero_store b (k / 4) none s,
    ← channelsBlocked_zero_trace b k q s]
  calc exec .retrieve s
      = .next (retrievePass s) := exec_of_ready .retrieve hcfg hidle
    _ = .next (channelsBlocked b 0 k q s) := by rw [retrievePass_of_never hk hanswers hnever]

end Sys2Proof.Proofs
end

section
/-! The accessors write nothing and do not look at the classification (spec/42_accessors_and_conversion.md R102 (a), (b)). -/

namespace Sys2Proof.Proofs

open Sys2Proof Sys2Proof.Machine Sys2Proof.Claims

theorem lastResult_access (idx : Nat) (v : Res) (f : Slot → Res) (s : State) :
    lastResult (access idx v f s) =
      some (if indexValid s.cfg idx then f (slotAt (idx - 1) s) else v) := by
  unfold access
  split
  · exact lastResult_of_trace rfl
  · exact lastResult_of_trace (List.append_assoc ..).symm

/-- What an accessor returns. -/
theorem lastResult_bodyOf_accessor {i : Instr} {idx : Nat} (hi : accessorIdx i = some idx) (s : State) :
    lastResult (bodyOf i s) = some
      (if indexValid s.cfg idx then accessorValue i s.cfg (slotAt (idx - 1) s) else sentinelOf i) := by
  rw [bodyOf_accessor hi, lastResult_access]

/-- A temperature accessor reads `tc` or `amb`, never `flt`. -/
theorem accessorValue_congr {i : Instr} {idx : Nat} (hi : accessorIdx i = some idx)
    (hfault : i ≠ .getFault idx) (cfg : Config) {c c' : Slot} (htc : c'.tc = c.tc)
    (hamb : c'.amb = c.amb) : accessorValue i cfg c' = accessorValue i cfg c := by
  cases i with
  | init | pwrOn | pwrOff | teardown | retrieve => cases hi
  | getTcC | getTcF => simp only [accessorValue, htc]
  | getAmbC | getAmbF => simp only [accessorValue, hamb]
  | getFault => cases hi; exact absurd rfl hfault

/-- Other classifications beside the temperatures leave the temperatures. -/
theorem slotAt_withFlt (k : Nat) (f : FaultClass) (s : State) :
    (slotAt k (withStore (s.store.map fun c => { c with flt := f }) s)).tc = (slotAt k s).tc ∧
      (slotAt k (withStore (s.store.map fun c => { c with flt := f }) s)).amb = (slotAt k s).amb := by
  simp only [slotAt, withStore, List.getD_eq_getElem?_getD, List.getElem?_map]
  cases s.store[k]? with
  | none => exact ⟨rfl, rfl⟩
  | some c => exact ⟨rfl, rfl⟩

/-- Settles O51: an accessor only emits, and its result depends on the configuration and on the slot it names. -/
theorem accessorsWriteNothing : Obligations.AccessorsWriteNothing := by
  constructor
  · intro i idx s t hi h
    obtain ⟨hcfg, hidle, rfl⟩ := exec_eq_next h
    obtain ⟨es, he⟩ : ∃ es, bodyOf i s = emit es s := by
      rw [bodyOf_accessor hi]
      exact access_eq_emit ..
    refine ⟨⟨es, he⟩, bodyOf i (bodyOf i s), ?_, ?_⟩
    · rw [he]
      exact exec_of_ready i hcfg hidle
    · rw [lastResult_bodyOf_accessor hi, lastResult_bodyOf_accessor hi, he]
      rfl
  · intro i idx s t f hi hfault h
    obtain ⟨hcfg, hidle, rfl⟩ := exec_eq_next h
    obtain ⟨htc, hamb⟩ := slotAt_withFlt (idx - 1) f s
    refine ⟨_, exec_of_ready i hcfg hidle, ?_⟩
    rw [lastResult_bodyOf_accessor hi, lastResult_bodyOf_accessor hi,
      accessorValue_congr hi hfault _ htc hamb]
    rfl

end Sys2Proof.Proofs
end

section
/-! The diagnostics hook (spec/60_exceptions.md R113): taking the hook and its events out of a state commutes with every
operation, so nothing but its events depends on it. -/

namespace Sys2Proof.Proofs

open Sys2Proof Sys2Proof.Machine Sys2Proof.Claims

/-- No event of the hook. -/
def NoDiag (es : List Event) : Prop := ∀ e ∈ es, isDiag e = false

/-- The events besides the hook's. -/
def dropDiag (es : List Event) : List Event := es.filter fun e => !isDiag e

theorem dropDiag_eq_self_iff {es : List Event} : dropDiag es = es ↔ NoDiag es := by
  simp [dropDiag, NoDiag]

@[simp] theorem dropDiag_append (es es' : List Event) :
    dropDiag (es ++ es') = dropDiag es ++ dropDiag es' := List.filter_append ..

theorem noDiag_append {es es' : List Event} : NoDiag (es ++ es') ↔ NoDiag es ∧ NoDiag es' :=
  List.forall_mem_append

/-- The configuration without the hook. -/
def hookless (c : Config) : Config := { c with diagEnable := false }

@[simp] theorem dropDiag_diagEvents (c : Config) (k : DiagKind) :
    dropDiag (diagEvents c k) = diagEvents (hookless c) k := by
  unfold diagEvents
  split <;> rfl

theorem dropDiag_decodeEvents (c : Config) (w : Word) :
    dropDiag (decodeEvents c w) = decodeEvents (hookless c) w := by
  unfold decodeEvents
  split
  · exact dropDiag_diagEvents c _
  · rfl

theorem noDiag_frameEvents (c : Config) (i x : Nat) (b : Nat → Byte) : NoDiag (frameEvents c i x b) := by
  simp [NoDiag, frameEvents, isDiag]

theorem noDiag_take_frameEvents (c : Config) (i x m : Nat) (b : Nat → Byte) :
    NoDiag ((frameEvents c i x b).take m) :=
  fun e he => noDiag_frameEvents c i x b e (List.mem_of_mem_take he)

/-- A pass without the hook emits the same but the hook's events. -/
theorem dropDiag_passEvents (c : Config) (b : Nat → Byte) (x k m : Nat) :
    dropDiag (passEvents c b x k m) = passEvents (hookless c) b x k m := by
  rw [dropDiag, passEvents, List.filter_flatMap]
  refine congrArg (fun f => List.flatMap f (List.range m)) (funext fun i => ?_)
  change dropDiag (_ ++ _) = _
  rw [dropDiag_append, dropDiag_eq_self_iff.mpr (noDiag_frameEvents _ _ _ _), dropDiag_decodeEvents]
  rfl

theorem noDiag_passEvents {c : Config} (hc : c.diagEnable = false) (b : Nat → Byte) (x k m : Nat) :
    NoDiag (passEvents c b x k m) := by
  have hhookless : hookless c = c := by rw [hookless, ← hc]
  rw [← dropDiag_eq_self_iff, dropDiag_passEvents, hhookless]

theorem withoutDiag_eq (s : State) :
    withoutDiag s = { s with cfg := hookless s.cfg, trace := dropDiag s.trace } := rfl

theorem withoutDiag_emit (es : List Event) (s : State) :
    withoutDiag (emit es s) = emit (dropDiag es) (withoutDiag s) := by
  rw [withoutDiag_eq, emit_trace, dropDiag_append]
  rfl

theorem withoutDiag_emit_of_noDiag {es : List Event} (hes : NoDiag es) (s : State) :
    withoutDiag (emit es s) = emit es (withoutDiag s) := by
  rw [withoutDiag_emit, dropDiag_eq_self_iff.mpr hes]

@[simp] theorem withoutDiag_pwrDir (m : PinMode) (s : State) :
    withoutDiag (pwrDir m s) = pwrDir m (withoutDiag s) :=
  withoutDiag_emit_of_noDiag (by simp [NoDiag, isDiag]) _

@[simp] theorem withoutDiag_pwrLevel (l : Level) (s : State) :
    withoutDiag (pwrLevel l s) = pwrLevel l (withoutDiag s) :=
  withoutDiag_emit_of_noDiag (by simp [NoDiag, isDiag]) _

@[simp] theorem withoutDiag_allCsDir (m : PinMode) (s : State) :
    withoutDiag (allCsDir m s) = allCsDir m (withoutDiag s) :=
  withoutDiag_emit_of_noDiag (by simp [NoDiag, isDiag]) _

@[simp] theorem withoutDiag_allCsLevel (l : Level) (s : State) :
    withoutDiag (allCsLevel l s) = allCsLevel l (withoutDiag s) :=
  withoutDiag_emit_of_noDiag (by simp [NoDiag, isDiag]) _

@[simp] theorem withoutDiag_clearStore (s : State) :
    withoutDiag (clearStore s) = clearStore (withoutDiag s) := rfl

theorem withoutDiag_access (idx : Nat) (v : Res) (f : Slot → Res) (s : State) :
    withoutDiag (access idx v f s) = access idx v f (withoutDiag s) := by
  rw [access, withoutDiag_emit]
  refine congrArg (emit · (withoutDiag s)) ?_
  change _ = if indexValid s.cfg idx then _ else _
  split
  · rfl
  · rw [dropDiag_append, dropDiag_diagEvents]
    rfl

theorem withoutDiag_channelsDone (b : Nat → Byte) (k m : Nat) (q : Option Pass) (s : State) :
    withoutDiag (channelsDone b k m q s) = channelsDone b k m q (withoutDiag s) := by
  rw [withoutDiag_eq, channelsDone, dropDiag_append, dropDiag_passEvents]
  rfl

theorem withoutDiag_channelsBlocked (b : Nat → Byte) (k j : Nat) (q : Pass) (s : State) :
    withoutDiag (channelsBlocked b k j q s) = channelsBlocked b k j q (withoutDiag s) := by
  have hdone : dropDiag (channelsDone b k (j / 4) none s).trace =
      (channelsDone b k (j / 4) none (withoutDiag s)).trace :=
    congrArg State.trace (withoutDiag_channelsDone b k (j / 4) none s)
  rw [withoutDiag_eq, channelsBlocked, dropDiag_append,
    dropDiag_eq_self_iff.mpr (noDiag_take_frameEvents _ _ _ _ _), hdone]
  rfl

/-- A pass is answered by the environment alone, so it ends the same way without the hook. -/
theorem withoutDiag_retrievePass (s : State) :
    withoutDiag (retrievePass s) = retrievePass (withoutDiag s) := by
  obtain ⟨b, hanswers, he⟩ | ⟨b, j, hj, hanswers, hnever, he⟩ := retrievePass_cases s
  · have hanswers' : Answers b (4 * (withoutDiag s).cfg.n) (withoutDiag s) := hanswers.of_fields rfl rfl
    rw [he, retrievePass_of_answers hanswers',
      withoutDiag_emit_of_noDiag (by simp [NoDiag, isDiag]), withoutDiag_channelsDone]
    rfl
  · have hanswers' : Answers b j (withoutDiag s) := hanswers.of_fields rfl rfl
    have hnever' : replyAt (withoutDiag s) j = .never := hnever
    rw [he, retrievePass_of_never (s := withoutDiag s) hj hanswers' hnever', withoutDiag_channelsBlocked]
    rfl

theorem withoutDiag_bodyOf (i : Instr) (s : State) :
    withoutDiag (bodyOf i s) = bodyOf i (withoutDiag s) := by
  cases i with
  | init | pwrOn | pwrOff | teardown => simp [bodyOf]
  | retrieve => exact withoutDiag_retrievePass s
  | getTcC | getTcF | getAmbC | getAmbF | getFault => exact withoutDiag_access ..

theorem access_trace_noDiag {s : State} (hs : s.cfg.diagEnable = false) (idx : Nat) (v : Res)
    (f : Slot → Res) : ∃ es, (access idx v f s).trace = s.trace ++ es ∧ NoDiag es := by
  refine ⟨_, rfl, ?_⟩
  split
  · simp [NoDiag, isDiag]
  · simp [NoDiag, isDiag, diagEvents, hs]

theorem retrievePass_trace_noDiag {s : State} (hs : s.cfg.diagEnable = false) :
    ∃ es, (retrievePass s).trace = s.trace ++ es ∧ NoDiag es := by
  obtain ⟨b, -, he⟩ | ⟨b, j, -, -, -, he⟩ := retrievePass_cases s
  · refine ⟨_, by rw [he, emit_trace, channelsDone, List.append_assoc], ?_⟩
    exact noDiag_append.mpr ⟨noDiag_passEvents hs _ _ _ _, by simp [NoDiag, isDiag]⟩
  · refine ⟨_, by rw [he, channelsBlocked, channelsDone, List.append_assoc], ?_⟩
    exact noDiag_append.mpr ⟨noDiag_passEvents hs _ _ _ _, noDiag_take_frameEvents _ _ _ _ _⟩

/-- With the hook absent an operation emits none of its events. -/
theorem bodyOf_trace_noDiag (i : Instr) {s : State} (hs : s.cfg.diagEnable = false) :
    ∃ es, (bodyOf i s).trace = s.trace ++ es ∧ NoDiag es := by
  cases i with
  | init | pwrOn | pwrOff | teardown =>
    exact ⟨_, bodyOf_trace_of_pin (by simp) s, by simp [NoDiag, pinEvents, isDiag, or_imp, forall_and]⟩
  | retrieve => exact retrievePass_trace_noDiag hs
  | getTcC | getTcF | getAmbC | getAmbF | getFault => exact access_trace_noDiag hs ..

/-- Settles O55: the two states are one once the hook is taken out, and operations commute with taking it out. -/
theorem diagnosticsChangeNothingElse : Obligations.DiagnosticsChangeNothingElse := by
  intro i s t h
  obtain ⟨hcfg, hidle, rfl⟩ := exec_eq_next h
  refine ⟨bodyOf_trace_noDiag i rfl, bodyOf i (withDiag true s), exec_of_ready i hcfg hidle, ?_⟩
  calc withoutDiag (bodyOf i (withDiag true s))
      = bodyOf i (withoutDiag (withDiag true s)) := withoutDiag_bodyOf ..
    _ = bodyOf i (withoutDiag (withDiag false s)) := rfl
    _ = withoutDiag (bodyOf i (withDiag false s)) := (withoutDiag_bodyOf ..).symm

end Sys2Proof.Proofs
end
